-- ==== Sys2Proof/Word.lean ====
section
/-! DEFINITION. The word types of the reverse-varint codec: the byte, the 64-bit value, the 7-bit group, the
3-bit operation code, and what a caller presents to the block (spec/00_scope.md R5, R9, R10;
spec/10_state.md R25; spec/30_encoding.md R49, R61). -/

namespace Sys2Proof

/-- R29: the addressable unit, 8 bits numbered 7 (the high bit) to 0. -/
abbrev Byte := BitVec 8

/-- R9, R10: a value, 64 bits numbered 63 to 0: a `u64`, or the two's-complement pattern of an `i64`. -/
abbrev Word := BitVec 64

/-- R67: one 7-bit group of a value, the payload of one encoded byte. -/
abbrev Group := BitVec 7

/-- R61: the request field `op`, 3 bits. -/
abbrev OpCode := BitVec 3

/-- What stands on the block's input: the two row formats of spec/opcode_table.json, not yet decoded.
R25: a request carries `op` and `val_in` (an operation that reads no `val_in` ignores it); the regions it
acts on are the caller's `B` and `D` in `State`.  R49: a byte of an encoded value, the format of the
table's rows TERM_BYTE and CONT_BYTE; it is data of a region, and no request of R25 can hold one. -/
inductive Presented where
  | request (op : OpCode) (valIn : Word)
  | encodedByte (b : Byte)
deriving DecidableEq, Repr

end Sys2Proof
end

