-- ==== Sys2Proof/Config.lean ====
section
/-! DEFINITION. The block's fixed parameters (spec/00_scope.md R5) and exposed constants (spec/10_state.md R19).
The open parameters COUNT_W, BUF_CAP and IFACE (R6) have no rule that depends on them: the byte-count is an
`Int`, a region is a list of any length, and there are no ports (assumptions 3, 4, 5). -/

namespace Sys2Proof.Config

/-- R5 `VALUE_W`. -/
abbrev valueW : Nat := 64

/-- R5 `GROUP_W`. -/
abbrev groupW : Nat := 7

/-- R5 `BYTE_W`. -/
abbrev byteW : Nat := 8

/-- R5 `MIN_LEN`. -/
abbrev minLen : Nat := 1

/-- R19 `MAXLEN16`. -/
abbrev maxLen16 : Nat := 3

/-- R19 `MAXLEN32`. -/
abbrev maxLen32 : Nat := 5

/-- R19 `MAXLEN64`, the source's `MaxVarintLen64`: the capacity an "into" encoder demands (R72) and the
decoder's scan limit (R81). -/
abbrev maxLen64 : Nat := 10

/-- What an unlisted address of a region reads as: no value, since the index does not exist (R28, R38). -/
abbrev unlistedByte : Option Byte := none

end Sys2Proof.Config
end

