-- ==== Sys2Proof/Syntax.lean ====
section
/-! DEFINITION. The instructions: one constructor per row of spec/opcode_table.json. The operand of an encoder
is the request's `val_in` (spec/10_state.md R25); the regions are implicit in the operation
(spec/30_encoding.md R63). -/

namespace Sys2Proof

/-- The ten rows of the opcode table: the six operations (R8), the two reserved codes (R62) and the two
formats of an encoded byte (R49). -/
inductive Instr where
  /-- EUI, op 0 (R71): `encode_unsigned_into D, x`. -/
  | encodeUnsignedInto (x : Word)
  /-- EUA, op 1 (R70): `encode_unsigned_append B, x`. -/
  | encodeUnsignedAppend (x : Word)
  /-- ESI, op 2 (R78): `encode_signed_into D, x`; the operand is the pattern `bits64(x)`. -/
  | encodeSignedInto (x : Word)
  /-- ESA, op 3 (R77): `encode_signed_append B, x`; the operand is the pattern `bits64(x)`. -/
  | encodeSignedAppend (x : Word)
  /-- DU, op 4 (R90): `decode_unsigned B`. -/
  | decodeUnsigned
  /-- DS, op 5 (R93): `decode_signed B`. -/
  | decodeSigned
  /-- op 6 (R62): selects no operation. -/
  | reservedOp6
  /-- op 7 (R62): selects no operation. -/
  | reservedOp7
  /-- The byte format `0ppppppp` (R49): a terminator with payload `p`. -/
  | termByte (p : Group)
  /-- The byte format `1ppppppp` (R49): a continuation byte with payload `p`. -/
  | contByte (p : Group)
deriving DecidableEq, Repr

end Sys2Proof
end

