-- ==== Sys2Proof/Decode.lean ====
section
/-! DEFINITION. From what the caller presents to an instruction, and back. Every operation code and every byte
has a row (spec/30_encoding.md R49, R61, R62), so `decode` is total and rejects nothing; what can be rejected,
by name, is a number that is no word of the opcode table. -/

namespace Sys2Proof

/-- R49, field `c`: bit 7 of an encoded byte, set on a continuation byte. -/
def contBit (b : Byte) : Bool := b.getLsbD 7

/-- R49, field `p`: bits 6:0 of an encoded byte. -/
def payload (b : Byte) : Group := b.extractLsb' 0 7

/-- R61, R62: the operation code of a request. -/
def decodeRequest (op : OpCode) (valIn : Word) : Instr :=
  match op.toNat with
  | 0 => .encodeUnsignedInto valIn
  | 1 => .encodeUnsignedAppend valIn
  | 2 => .encodeSignedInto valIn
  | 3 => .encodeSignedAppend valIn
  | 4 => .decodeUnsigned
  | 5 => .decodeSigned
  | 6 => .reservedOp6
  | _ => .reservedOp7

/-- R49: every byte is a TERM_BYTE or a CONT_BYTE. -/
def decodeEncodedByte (b : Byte) : Instr :=
  if contBit b then .contByte (payload b) else .termByte (payload b)

/-- The decoder, total on everything that can be presented. -/
def decode : Presented → Instr
  | .request op valIn => decodeRequest op valIn
  | .encodedByte b => decodeEncodedByte b

/-- Why a number is no word of the opcode table. -/
inductive Reject where
  /-- A bit is set at or above the width the word is said to have. -/
  | bitAboveWidth
  /-- No row of the table is wider than one byte. -/
  | widerThanOneByte
deriving DecidableEq, Repr

/-- The word of an opcode-table row as what is presented: 0 to 7 is an operation code with `val_in = 0` (the
table gives the operand no bits), 8 to 255 an encoded byte. The table's two formats overlap on 0 to 7 and the
number alone does not tell them apart; the request is taken (DESIGN CHOICE, assumption 2). -/
def presentTableWord (nbits w : Nat) : Except Reject Presented :=
  if 2 ^ nbits ≤ w then .error .bitAboveWidth
  else if w < 8 then .ok (.request (BitVec.ofNat 3 w) 0)
  else if w < 256 then .ok (.encodedByte (BitVec.ofNat 8 w))
  else .error .widerThanOneByte

/-- The instruction the decoder reads from a word of the opcode table. -/
def decodeTableWord (nbits w : Nat) : Option Instr :=
  match presentTableWord nbits w with
  | .ok p => some (decode p)
  | .error _ => none

/-- R49: `0ppppppp`. -/
def termByteOf (p : Group) : Byte := 0#1 ++ p

/-- R49: `1ppppppp`. -/
def contByteOf (p : Group) : Byte := 1#1 ++ p

/-- The encoder: what a caller presents for an instruction (R49, R61, R62). A request whose operation reads no
`val_in` is written with 0 there. -/
def encode : Instr → Presented
  | .encodeUnsignedInto x => .request 0b000 x
  | .encodeUnsignedAppend x => .request 0b001 x
  | .encodeSignedInto x => .request 0b010 x
  | .encodeSignedAppend x => .request 0b011 x
  | .decodeUnsigned => .request 0b100 0
  | .decodeSigned => .request 0b101 0
  | .reservedOp6 => .request 0b110 0
  | .reservedOp7 => .request 0b111 0
  | .termByte p => .encodedByte (termByteOf p)
  | .contByte p => .encodedByte (contByteOf p)

end Sys2Proof
end

