-- ==== Sys2Proof/Machine/Operands.lean ====
section
/-! DEFINITION. The arithmetic of the operands: the length of an encoding and its groups
(spec/40_unsigned_encoder.md R65 to R68), and the zig-zag map with its inverse (spec/41_signed_encoder.md R74,
spec/43_signed_decoder.md R91). The byte fields `contBit`, `payload`, `termByteOf`, `contByteOf` (R49) are in
Sys2Proof/Decode.lean. -/

namespace Sys2Proof.Machine

/-- R10: the 64-bit pattern of an `i64`. -/
def bits64 (x : Int) : Word := BitVec.ofInt 64 x

/-- R10: the `i64` of a 64-bit pattern. -/
def signed64 (u : Word) : Int := u.toInt

/-- R65: the number of bits needed to write `x`, with `bitlength 0 = 1` (`Nat.log2 0 = 0`). -/
def bitlength (x : Word) : Nat := Nat.log2 x.toNat + 1

/-- R66: `n(x)`, the number of groups beyond the highest one. -/
def groupCount (x : Word) : Nat := (bitlength x - 1) / Config.groupW

/-- R67: `g(x, k)`, bits `7k+6 .. 7k` of `x`, bits above 63 read as 0. -/
def group (x : Word) (k : Nat) : Group := (x >>> (Config.groupW * k)).setWidth 7

/-- The continuation bytes for the groups `k-1` down to 0 (R68). -/
def contGroups (x : Word) : Nat → List Byte
  | 0 => []
  | k + 1 => contByteOf (group x k) :: contGroups x k

/-- R68: `enc(x)`, terminator first, then the lower groups. -/
def enc (x : Word) : List Byte :=
  termByteOf (group x (groupCount x)) :: contGroups x (groupCount x)

/-- R74: the zig-zag map on the pattern `bits64(x)`. -/
def zz (x : Word) : Word := (x <<< 1) ^^^ (if x.msb then BitVec.allOnes 64 else 0)

/-- R91: the inverse of the zig-zag map, as a pattern: a logical shift, then the bitwise complement (not the
negation, spec/90_conflicts.md C3) when the low bit is set. -/
def unzz (u : Word) : Word := if u.getLsbD 0 then ~~~(u >>> 1) else u >>> 1

end Sys2Proof.Machine
end

