-- ==== Sys2Proof/Machine/State.lean ====
section
/-! DEFINITION. The state of a modelled run: the caller's regions `B` and `D` and the run outcome
(spec/10_state.md R22, R23, R24), the response fields (R26), and the model's own list of what the caller does
next (R16: the operation is an input of the step). The codec itself holds nothing (R14). -/

namespace Sys2Proof.Machine

/-- R28: the two address spaces. -/
inductive Region where
  | B
  | D
deriving DecidableEq, Repr

/-- A region's bytes, keyed by index (R12, R28). -/
abbrev Memory := List Host.Cell

/-- The canonical form: the entries are exactly the indices 0, 1, ..., len-1, in rising order. So addresses
rise strictly, no index of the region is missing (R12, R28), and no entry equals what an unlisted address reads
as, since that is no value. -/
abbrev Memory.wf (m : Memory) : Prop := m.map Prod.fst = List.range m.length

/-- A region with the given bytes, head first. -/
def Memory.ofBytes (bs : List Byte) : Memory := (List.range bs.length).zip bs

/-- R24: the outcome of the run so far. `faulted cap` is `faulted(CapacityViolation)`, the only fault of the
spec, with the value it records, `cap(D)` (R95, R96). -/
inductive RunOutcome where
  | running
  | faulted (cap : Nat)
deriving DecidableEq, Repr

/-- R26: the field `outcome` of a response. -/
inductive OpOutcome where
  | ok
  | fault (cap : Nat)
deriving DecidableEq, Repr

/-- R26: the response fields beside the regions; a field the operation does not produce has no value (`none`).
The response fields `B'` and `D'` are the regions themselves (assumption 8). -/
structure Response where
  valOut  : Option Word
  cnt     : Option Int
  outcome : OpOutcome
deriving DecidableEq, Repr

/-- R64, R120, R125: what the caller does to its regions between operations. -/
inductive CallerAction where
  /-- `host.truncate B, k`: `B <- drop_tail(B, k)` (R12, R120). -/
  | truncate (k : Nat)
  /-- `host.init B, bytes` (R64). -/
  | initB (bytes : List Byte)
  /-- `host.init D, bytes` (R64): the caller sets the slice, or hands over another one. -/
  | initD (bytes : List Byte)
  /-- The caller appends `D[0 .. k)` to `B` in index order (R125). -/
  | copyToB (k : Nat)
deriving DecidableEq, Repr

/-- One thing the caller does: it issues something to the block, or acts on its own regions. -/
inductive Event where
  | present (p : Presented)
  | caller (a : CallerAction)
deriving DecidableEq, Repr

/-- Why the machine stops. -/
inductive Fault where
  /-- R96, R98: raised by `step` in a run whose outcome is `faulted`: an "into" encode was given a slice of
  `cap` < 10 bytes, and no later operation of the run is performed. Safe: the machine stops where the spec
  says the run has ended. -/
  | capacityViolation (cap : Nat)
  /-- R38: raised by a byte access at an index the region does not have. No operation makes one in a state whose
  regions are in canonical form, so it is raised in states only that no run reaches. Safe. -/
  | outsideRegion (r : Region) (index : Nat)
deriving DecidableEq, Repr

/-- Why something presented, or a caller's action, has no meaning. -/
inductive Refusal where
  /-- Raised by `exec` for an instruction the model gives no meaning; no arm does so. Safe. -/
  | notModelled (mnemonic : String)
  /-- R62: raised by the operation codes 6 and 7, which select no operation. Safe. -/
  | reservedOp (op : OpCode)
  /-- R8, R49: raised when a byte of an encoded value is presented as if it were an operation; there are six
  operations and no other. Safe. -/
  | notAnOperation (b : Byte)
  /-- R12: raised by the caller's truncation by more bytes than `B` has, for which `drop_tail` is not defined.
  Safe. -/
  | truncatePastHead (k len : Nat)
  /-- R12, R125: raised by the caller's copy of more bytes than `D` has. Safe. -/
  | copyPastSlice (k cap : Nat)
deriving DecidableEq, Repr

/-- The state of a run. -/
structure State where
  /-- R22: the buffer. -/
  B : Memory
  /-- R23: the destination slice. -/
  D : Memory
  /-- R24: the run outcome. -/
  outcome : RunOutcome
  /-- R26: the response of the last operation; `none` until the first one responds (R27). -/
  response : Option Response
  /-- The model's own: what the caller does next, in issue order (R16, R43). -/
  pending : List Event
deriving DecidableEq, Repr

/-- R27, R113, U5: the start of a run, whose initial regions are the caller's launch inputs. -/
def State.launch (b d : List Byte) (program : List Event) : State where
  B := Memory.ofBytes b
  D := Memory.ofBytes d
  outcome := .running
  response := none
  pending := program

/-- The state after reset (R27, R113): outcome `running`, no response. The spec leaves the contents of `B` and
`D` to the caller; here `B` is empty and `D` is ten zero bytes, the capacity R114 asks for (DESIGN CHOICE,
assumption 1), and the caller has issued nothing. -/
def State.reset : State := State.launch [] (List.replicate Config.maxLen64 0) []

end Sys2Proof.Machine
end

