-- ==== Sys2Proof/Machine/Ops.lean ====
section
/-! DEFINITION. The operations the meanings share: access to a region, the writing of an encoding, the decoder's
scan, taking the one fault, and what the caller does between operations. -/

namespace Sys2Proof.Machine

/-- The answer of a meaning. -/
abbrev Result := Host.Outcome State Fault Refusal

/-! ### One region -/

/-- `len` of a region (R12); `cap(D)` is the same quantity (R23). -/
def Memory.len (m : Memory) : Nat := m.length

/-- The bytes of a region, head first (R12). -/
def Memory.bytes (m : Memory) : List Byte := m.map Prod.snd

/-- R13 `MemRead(m+i, 1)`; no value at an index the region does not have. -/
def Memory.read (m : Memory) (i : Nat) : Option Byte :=
  match m.find? fun c => c.1 == i with
  | some c => some c.2
  | none => Config.unlistedByte

/-- R13 `MemWrite(m+i, 1, b)`; no result at an index the region does not have. -/
def Memory.write (m : Memory) (i : Nat) (b : Byte) : Option Memory :=
  match m.read i with
  | some _ => some (m.map fun c => if c.1 = i then (i, b) else c)
  | none => none

/-- R13 `Append(m, b)`: the only way a region grows. -/
def Memory.append (m : Memory) (b : Byte) : Memory := m ++ [(m.len, b)]

/-- The bytes of a list appended one after another, the first one first. -/
def Memory.appendAll (m : Memory) (bs : List Byte) : Memory := bs.foldl Memory.append m

/-- R71: the bytes of a list written at the indices `j`, `j+1`, ...; `error i` when the region lacks the
index `i`. -/
def Memory.writeAll (m : Memory) (j : Nat) : List Byte → Except Nat Memory
  | [] => .ok m
  | b :: bs =>
    match m.write j b with
    | none => .error j
    | some m' => Memory.writeAll m' (j + 1) bs

/-- R12 `drop_tail(m, k)`, for `k ≤ len`. -/
def Memory.dropTail (m : Memory) (k : Nat) : Memory := m.take (m.len - k)

/-! ### Updates of the state -/

/-- The buffer replaced. -/
def State.setB (s : State) (m : Memory) : State := { s with B := m }

/-- The slice replaced. -/
def State.setD (s : State) (m : Memory) : State := { s with D := m }

/-- The run outcome replaced. -/
def State.setOutcome (s : State) (o : RunOutcome) : State := { s with outcome := o }

/-- The response of an operation. -/
def State.setResponse (s : State) (r : Response) : State := { s with response := some r }

/-- What the caller does next replaced. -/
def State.setPending (s : State) (es : List Event) : State := { s with pending := es }

/-! ### The responses of R26 -/

/-- An append encoder responds with `B'` only. -/
def Response.appended : Response := { valOut := none, cnt := none, outcome := .ok }

/-- An "into" encoder responds with `D'` and the number of bytes written. -/
def Response.written (c : Int) : Response := { valOut := none, cnt := some c, outcome := .ok }

/-- A decoder responds with a value and a byte-count. -/
def Response.decoded (v : Word) (c : Int) : Response :=
  { valOut := some v, cnt := some c, outcome := .ok }

/-- R97: a faulting "into" encode produces no field but the outcome. -/
def Response.faulted (cap : Nat) : Response := { valOut := none, cnt := none, outcome := .fault cap }

/-! ### The fault -/

/-- R95: fault code 1 is the one fault of the spec; the model's own `outsideRegion` has none. -/
def Fault.code : Fault → Option Nat
  | .capacityViolation _ => some 1
  | .outsideRegion _ _ => none

/-- Taking `CapacityViolation` (R96, R97, R98): the run outcome becomes `faulted` with the offending
`cap(D)`, no count is produced, and neither region changes. There is no handler, no saved register and no
return. -/
def takeCapacityViolation (s : State) : State :=
  (s.setOutcome (.faulted s.D.len)).setResponse (Response.faulted s.D.len)

/-! ### Encoders -/

/-- R70: `enc(u)` appended to the tail of `B`; always succeeds (R112). -/
def appendEncoding (u : Word) (s : State) : Result :=
  .next ((s.setB (s.B.appendAll (enc u))).setResponse Response.appended)

/-- R71, R72: the capacity check against 10 before any write, whatever the value; then `enc(u)` at the front
of `D`, and its length as the count. -/
def intoEncoding (u : Word) (s : State) : Result :=
  if s.D.len < Config.maxLen64 then .next (takeCapacityViolation s)
  else
    match s.D.writeAll 0 (enc u) with
    | .ok d => .next ((s.setD d).setResponse (Response.written (groupCount u + 1)))
    | .error j => .fault (.outsideRegion .D j)

/-! ### The decoder's scan -/

/-- What one byte does to the scan: it ends it with `(val, cnt)`, or the accumulator goes on. -/
inductive ByteStep where
  | done (val : Word) (cnt : Int)
  | goOn (acc : Word)
deriving DecidableEq, Repr

/-- A payload at the bit offset of step `i`, zero-extended (R51, R81). -/
def placeAt (i : Nat) (b : Byte) : Word := (payload b).setWidth 64 <<< (Config.groupW * i)

/-- R81 (c), (d): the byte met at step `i`. A terminator ends the scan (at the tenth byte only if it is 0 or 1,
R86); a continuation byte gives its payload. -/
def byteStep (i : Nat) (acc : Word) (b : Byte) : ByteStep :=
  if contBit b then .goOn (acc ||| placeAt i b)
  else if i = Config.maxLen64 - 1 ∧ 1 < b.toNat then .done 0 (-10)
  else .done (acc ||| placeAt i b) (i + 1)

/-- R81: the loop of `dec`, with `r` byte positions left of the ten it may read, hence at step `i = 10 - r`.
The head of the buffer is tested first (a), then the limit of ten (b), then the byte is read. -/
def scan (B : Memory) : Nat → Word → Except Fault (Word × Int)
  | 0, _ => if B.len = Config.maxLen64 then .ok (0, 0) else .ok (0, -11)
  | r + 1, acc =>
    let i := Config.maxLen64 - (r + 1)
    if B.len = i then .ok (0, 0)
    else
      match B.read (B.len - 1 - i) with
      | none => .error (.outsideRegion .B (B.len - 1 - i))
      | some b =>
        match byteStep i acc b with
        | .done v c => .ok (v, c)
        | .goOn acc' => scan B r acc'

/-- R81: `dec(B)`. -/
def dec (B : Memory) : Except Fault (Word × Int) := scan B Config.maxLen64 0

/-- R90, R93: `dec(B)` with `f` applied to the value whatever the count is; `B` is not written. -/
def decodeWith (f : Word → Word) (s : State) : Result :=
  match dec s.B with
  | .ok (u, c) => .next (s.setResponse (Response.decoded (f u) c))
  | .error e => .fault e

/-! ### The caller between operations -/

/-- R64, R120, R125: a caller action. It is no operation of the block, so no response changes. -/
def performCaller (a : CallerAction) (s : State) : Result :=
  match a with
  | .truncate k =>
    if k ≤ s.B.len then .next (s.setB (s.B.dropTail k)) else .refused (.truncatePastHead k s.B.len)
  | .initB bs => .next (s.setB (Memory.ofBytes bs))
  | .initD bs => .next (s.setD (Memory.ofBytes bs))
  | .copyToB k =>
    if k ≤ s.D.len then .next (s.setB (s.B.appendAll (s.D.bytes.take k)))
    else .refused (.copyPastSlice k s.D.len)

end Sys2Proof.Machine
end

