-- ==== Sys2Proof/Machine/NonOperations.lean ====
section
/-! DEFINITION. The rows of the opcode table that are no operation: the reserved codes (spec/30_encoding.md R62)
and the two formats of an encoded byte (R49). A byte's effect is its effect on the operations that write it
(`enc`) and scan it (`byteStep`); issued in place of an operation it has none, since there are exactly six
operations (spec/00_scope.md R8). -/

namespace Sys2Proof.Machine

/-- R62: op 6 is refused before anything else is looked at (R102). -/
def execReservedOp6 (_ : State) : Result := .refused (.reservedOp 6)

/-- R62: op 7 is refused before anything else is looked at (R102). -/
def execReservedOp7 (_ : State) : Result := .refused (.reservedOp 7)

/-- R8, R49: a terminator byte is data, not an operation. -/
def execTermByte (p : Group) (_ : State) : Result := .refused (.notAnOperation (termByteOf p))

/-- R8, R49: a continuation byte is data, not an operation. -/
def execContByte (p : Group) (_ : State) : Result := .refused (.notAnOperation (contByteOf p))

end Sys2Proof.Machine
end

