-- ==== Sys2Proof/Machine/SignedDecoder.lean ====
section
/-! DEFINITION. The signed decoder: the unsigned decoder, then the inverse zig-zag map, which is applied whatever
the count is (spec/43_signed_decoder.md R94). -/

namespace Sys2Proof.Machine

/-- R93: `decode_signed B`; the value of the response is the pattern `bits64(v)`. -/
def execDecodeSigned (s : State) : Result := decodeWith unzz s

end Sys2Proof.Machine
end

