-- ==== Sys2Proof/Machine/SignedEncoder.lean ====
section
/-! DEFINITION. The signed encoders: the zig-zag map, then the unsigned encoder of the same variant
(spec/41_signed_encoder.md). -/

namespace Sys2Proof.Machine

/-- R78: `encode_signed_into D, x`, the operand being `bits64(x)`. -/
def execEncodeSignedInto (x : Word) (s : State) : Result := intoEncoding (zz x) s

/-- R77: `encode_signed_append B, x`, the operand being `bits64(x)`. -/
def execEncodeSignedAppend (x : Word) (s : State) : Result := appendEncoding (zz x) s

end Sys2Proof.Machine
end

