-- ==== Sys2Proof/Machine/UnsignedDecoder.lean ====
section
/-! DEFINITION. The unsigned decoder (spec/42_unsigned_decoder.md). -/

namespace Sys2Proof.Machine

/-- R90: `decode_unsigned B`. -/
def execDecodeUnsigned (s : State) : Result := decodeWith (fun u => u) s

end Sys2Proof.Machine
end

