-- ==== Sys2Proof/Machine/UnsignedEncoder.lean ====
section
/-! DEFINITION. The unsigned encoders (spec/40_unsigned_encoder.md). -/

namespace Sys2Proof.Machine

/-- R71: `encode_unsigned_into D, x`. -/
def execEncodeUnsignedInto (x : Word) (s : State) : Result := intoEncoding x s

/-- R70: `encode_unsigned_append B, x`. -/
def execEncodeUnsignedAppend (x : Word) (s : State) : Result := appendEncoding x s

end Sys2Proof.Machine
end

