-- ==== Sys2Proof/Machine/Dispatch.lean ====
section
/-! DEFINITION. The meaning of each instruction. -/

namespace Sys2Proof.Machine

def exec (i : Instr) (s : State) : Host.Outcome State Fault Refusal :=
  match i with
  -- spec/40_unsigned_encoder.md
  | .encodeUnsignedInto x => Sys2Proof.Machine.execEncodeUnsignedInto x s
  | .encodeUnsignedAppend x => Sys2Proof.Machine.execEncodeUnsignedAppend x s
  -- spec/41_signed_encoder.md
  | .encodeSignedInto x => Sys2Proof.Machine.execEncodeSignedInto x s
  | .encodeSignedAppend x => Sys2Proof.Machine.execEncodeSignedAppend x s
  -- spec/42_unsigned_decoder.md
  | .decodeUnsigned => Sys2Proof.Machine.execDecodeUnsigned s
  -- spec/43_signed_decoder.md
  | .decodeSigned => Sys2Proof.Machine.execDecodeSigned s
  -- spec/30_encoding.md R62, R49
  | .reservedOp6 => Sys2Proof.Machine.execReservedOp6 s
  | .reservedOp7 => Sys2Proof.Machine.execReservedOp7 s
  | .termByte p => Sys2Proof.Machine.execTermByte p s
  | .contByte p => Sys2Proof.Machine.execContByte p s

end Sys2Proof.Machine
end

