-- ==== Sys2Proof/Machine/Step.lean ====
section
/-! DEFINITION. One step of a run. The block has no program counter and fetches nothing (spec/10_state.md R16,
spec/20_memory.md R47): the operation is an input of the step, the head of what the caller does next. -/

namespace Sys2Proof.Machine

/-- One step. A faulted run performs nothing more (R98). When the caller issues nothing, nothing happens, and
the regions and the outcome stay as the last operation left them (R115; assumption 7). Otherwise the head of
`pending` is taken, and the operation it decodes to, or the caller's action, is performed as one indivisible
step (R7, R40). -/
def step (s : State) : Host.Outcome State Fault Refusal :=
  match s.outcome with
  | .faulted cap => .fault (.capacityViolation cap)
  | .running =>
    match s.pending with
    | [] => .next s
    | .present p :: rest => exec (decode p) (s.setPending rest)
    | .caller a :: rest => performCaller a (s.setPending rest)

/-- `s` with the word of an opcode-table row issued next (a number that is no word of the table issues
nothing). -/
def State.withFetchWord (s : State) (nbits w : Nat) : State :=
  match presentTableWord nbits w with
  | .ok p => s.setPending (.present p :: s.pending)
  | .error _ => s

end Sys2Proof.Machine
end

