-- ==== Sys2Proof/Machine/Forms.lean ====
section
/-! DEFINITION. Encoded forms as the spec describes them apart from any operation (spec/30_encoding.md R50 to
R58): which byte sequences are forms, the value one denotes, and the class a buffer's tail
falls into with the verdict the spec gives that class. No operation is computed from this file: the decoder is
the scan of Machine/Ops.lean (R81), and that the two agree is a statement. -/

namespace Sys2Proof.Machine

/-- R50: at most ten bytes (R5 `MIN_LEN`, `MAXLEN64`). -/
def formLengthOk (e : List Byte) : Bool := Config.minLen ≤ e.length && e.length ≤ Config.maxLen64

/-- R50: the lowest byte is a terminator. -/
def formStartsWithTerminator (e : List Byte) : Bool := e.head?.any fun b => !contBit b

/-- R50: every later byte is a continuation byte. -/
def formContinues (e : List Byte) : Bool := e.tail.all contBit

/-- R52: in a ten-byte form the terminator's payload is 0 or 1. -/
def formFits (e : List Byte) : Bool :=
  e.length != Config.maxLen64 || e.head?.any fun b => decide ((payload b).toNat ≤ 1)

/-- R50: `e` is an encoded form. -/
abbrev IsForm (e : List Byte) : Prop :=
  formLengthOk e = true ∧ formStartsWithTerminator e = true ∧ formContinues e = true

/-- R50, R52: `e` is an encoded form that denotes a 64-bit value. -/
abbrev IsValueForm (e : List Byte) : Prop := IsForm e ∧ formFits e = true

/-- R51: `val(E)`, a mathematical integer; the byte `j` places before the last has weight `2^(7j)`. -/
def formVal : List Byte → Nat
  | [] => 0
  | b :: bs => (payload b).toNat * 2 ^ (Config.groupW * bs.length) + formVal bs

/-- R58: `t`, the number of consecutive continuation bytes at the end of the buffer. -/
def trailingConts (bs : List Byte) : Nat := (bs.reverse.takeWhile contBit).length

/-- R58: the classes of buffers. -/
inductive TailClass where
  | empty
  | unterminatedShort
  | complete
  | completeTenFits
  | completeTenTooLarge
  | tooLong
deriving DecidableEq, Repr

/-- R58: the class of a buffer, by `L`, `t` and, for a ten-byte form, the terminator's payload. -/
def tailClass (bs : List Byte) : TailClass :=
  let L := bs.length
  let t := trailingConts bs
  if L = 0 then .empty
  else if t = L ∧ L ≤ 10 then .unterminatedShort
  else if t ≤ 8 then .complete
  else if t ≥ 10 then .tooLong
  else if (bs.drop (L - 10)).head?.any fun b => decide ((payload b).toNat ≤ 1) then .completeTenFits
  else .completeTenTooLarge

/-- R58: the verdict of each class, as `(val_out, cnt)`. -/
def tailVerdict (bs : List Byte) : Nat × Int :=
  let t := trailingConts bs
  match tailClass bs with
  | .empty => (0, 0)
  | .unterminatedShort => (0, 0)
  | .complete => (formVal (bs.drop (bs.length - (t + 1))), t + 1)
  | .completeTenFits => (formVal (bs.drop (bs.length - 10)), 10)
  | .completeTenTooLarge => (0, -10)
  | .tooLong => (0, -11)

end Sys2Proof.Machine
end

