-- ==== Sys2Proof/Machine/Flags.lean ====
section
/-! DEFINITION. The block has no flags and no condition codes (spec/10_state.md R17): the whole status of a
decode is the sign class of its byte-count (spec/60_exceptions.md R99, R100), which is read here. No operation
computes or stores anything else. -/

namespace Sys2Proof.Machine

/-- R17: the three answers a byte-count gives. -/
inductive CountClass where
  /-- `cnt > 0`: the number of bytes to discard (R90). -/
  | success
  /-- `cnt = 0`: insufficient data (R99). -/
  | tooSmall
  /-- `cnt < 0`: overflow, with the number of bytes scanned as magnitude (R100). -/
  | overflow
deriving DecidableEq, Repr

/-- R17, R99, R100: the class of a byte-count. -/
def countClass (c : Int) : CountClass :=
  if 0 < c then .success else if c = 0 then .tooSmall else .overflow

end Sys2Proof.Machine
end

