-- ==== Sys2Proof/Safety.lean ====
section
/-! DEFINITION. What counts as a good state and a safe run: the regions' canonical form, the responses the spec
allows (spec/42_unsigned_decoder.md R88, spec/40_unsigned_encoder.md R71), the record of the fault
(spec/60_exceptions.md R96 to R98), and the caller's one capacity obligation
(spec/70_reset_and_hazards.md R118). -/

namespace Sys2Proof.Machine

/-- Both regions are in canonical form. -/
abbrev State.wf (s : State) : Prop := s.B.wf ∧ s.D.wf

/-- R88: the byte-counts a decode can have. -/
abbrev IsDecodeCount (c : Int) : Prop := c = -11 ∨ c = -10 ∨ c = 0 ∨ (1 ≤ c ∧ c ≤ 10)

/-- R26: what a response of one of the six operations can be: an append's, an "into" encode's with a count of 1
to 10, a decode's with one of the 13 counts and the value 0 unless the count is positive, or a fault's. -/
def Response.legal (r : Response) : Prop :=
  r = Response.appended ∨
  (∃ c : Int, r = Response.written c ∧ 1 ≤ c ∧ c ≤ 10) ∨
  (∃ (v : Word) (c : Int), r = Response.decoded v c ∧ IsDecodeCount c ∧ (c ≤ 0 → v = 0)) ∨
  (∃ cap : Nat, r = Response.faulted cap ∧ cap < 10)

/-- R96, R97: a faulted run records the capacity of the slice the fault left untouched, which is below 10. -/
def State.faultRecorded (s : State) : Prop :=
  ∀ cap, s.outcome = .faulted cap →
    cap = s.D.len ∧ cap < 10 ∧ s.response = some (Response.faulted cap)

/-- The invariant every step keeps. -/
def State.Inv (s : State) : Prop :=
  s.wf ∧ s.faultRecorded ∧ ∀ r, s.response = some r → r.legal

/-- One state leads to another by steps. -/
inductive Reaches : State → State → Prop where
  | refl (s : State) : Reaches s s
  | tail {s t u : State} : Reaches s t → step t = .next u → Reaches s u

/-- No state of the run has a fault recorded, and no step of it ends in a fault (R98: a faulted run is never a
good end). A refusal is no fault: it says that the caller asked for something without a meaning. -/
def RunsWithoutFault (s : State) : Prop :=
  ∀ t, Reaches s t → t.outcome = .running ∧ ∀ f, step t ≠ .fault f

/-- R118: whatever slice the caller hands over has the capacity of ten bytes. -/
def Event.keepsCapacity : Event → Prop
  | .caller (.initD bs) => Config.maxLen64 ≤ bs.length
  | _ => True

/-- R114, R118: the slice and every slice still to be handed over have a capacity of at least 10. -/
def State.capacityEstablished (s : State) : Prop :=
  Config.maxLen64 ≤ s.D.len ∧ ∀ e ∈ s.pending, e.keepsCapacity

/-- D5, U3: the premise a claim carries for a realisation whose buffer holds at most `bufCap` bytes. -/
def State.roomToAppend (bufCap : Nat) (s : State) : Prop := s.B.len + Config.maxLen64 ≤ bufCap

/-- R57: values encoded one after another by the encoder `mk`; `none` when an encode does not answer a next
state. -/
def appendValues (mk : Word → Instr) : List Word → State → Option State
  | [], s => some s
  | x :: xs, s =>
    match exec (mk x) s with
    | .next t => appendValues mk xs t
    | .fault _ => none
    | .refused _ => none

/-- R120: what a caller does to read `k` values off the tail with the decoder `i`: decode, test the count
(R119), truncate by it. The values in the order read, and the state left; `none` when a decode does not
succeed. -/
def readBack (i : Instr) : Nat → State → Option (List Word × State)
  | 0, s => some ([], s)
  | k + 1, s =>
    match exec i s with
    | .next t =>
      match t.response with
      | some { valOut := some v, cnt := some c, outcome := _ } =>
        match countClass c, performCaller (.truncate c.toNat) t with
        | .success, .next u => (readBack i k u).map fun p => (v :: p.1, p.2)
        | _, _ => none
      | _ => none
    | .fault _ => none
    | .refused _ => none

end Sys2Proof.Machine
end

