-- ==== Sys2Proof/WellFormed.lean ====
section
/-! DEFINITION. Which instructions are operations of the block. Operand widths are carried by the types of
`Instr`, so two checks are left: the row is a request and not the format of a data byte (spec/00_scope.md R8,
spec/30_encoding.md R49), and its code is not reserved (spec/30_encoding.md R62). -/

namespace Sys2Proof

/-- R8, R49: the row is a request; the two byte formats describe data in a region. -/
def Instr.isRequest : Instr → Bool
  | .encodeUnsignedInto _ => true
  | .encodeUnsignedAppend _ => true
  | .encodeSignedInto _ => true
  | .encodeSignedAppend _ => true
  | .decodeUnsigned => true
  | .decodeSigned => true
  | .reservedOp6 => true
  | .reservedOp7 => true
  | .termByte _ => false
  | .contByte _ => false

/-- R62: codes 6 and 7 are reserved and select no operation. -/
def Instr.isUnreserved : Instr → Bool
  | .encodeUnsignedInto _ => true
  | .encodeUnsignedAppend _ => true
  | .encodeSignedInto _ => true
  | .encodeSignedAppend _ => true
  | .decodeUnsigned => true
  | .decodeSigned => true
  | .reservedOp6 => false
  | .reservedOp7 => false
  | .termByte _ => true
  | .contByte _ => true

/-- R8: the instruction is one of the six operations. -/
abbrev Instr.WellFormed (i : Instr) : Prop := i.isRequest = true ∧ i.isUnreserved = true

end Sys2Proof
end

