-- ==== Sys2Proof/Certificates/Slice0/Obligations.lean ====
section
/-! DEFINITION. The statements about the machine, in the order: the step and the caller; encodings; the zig-zag
map; encoders; decoders; encoders and decoders together; the whole machine. Numbers are read with `toNat`
(a `u64`) and `signed64` (an `i64`). -/

open Sys2Proof Sys2Proof.Machine

/-! ### The step and the caller -/

/-- R16, the spec's own decision D14, has the step take the operation as its input. That the operation is the
head of the list `pending`, and is taken off it, is the model's choice (assumption 9, DESIGN CHOICE): a step of
a running run performs the operation that stands first there. -/
def Obligations.StepPerformsWhatIsPresented : Prop :=
  ∀ (s : State) (p : Presented) (rest : List Event),
    s.outcome = .running → s.pending = .present p :: rest →
    step s = exec (decode p) { s with pending := rest }

/-- The model's choice, and no rule of the spec: a number below 8 of the opcode table is read as a request with
`val_in` 0 (assumption 2, DESIGN CHOICE), and `withFetchWord` places it at the head of `pending` (assumption 9,
DESIGN CHOICE). A word so placed is what the very next step performs. -/
def Obligations.PlacedTableWordRunsNext : Prop :=
  ∀ (s : State) (nbits w : Nat) (i : Instr),
    s.outcome = .running → decodeTableWord nbits w = some i →
    step (s.withFetchWord nbits w) = exec i s

/-- R64, R12, R120, R125: what the caller does to its regions between operations: truncation, setting a region,
copying the front of the slice. Each leaves the other region and the outcome as they were. Two clauses are the
model's choice: that the response is kept over a caller action (assumption 8, DESIGN CHOICE, unsafe), and which
actions there are, among them setting `D` to bytes of another length (assumption 17, DESIGN CHOICE). -/
def Obligations.CallerActionsChangeTheirRegion : Prop :=
  ∀ (s : State) (rest : List Event), s.outcome = .running → s.wf →
    (∀ k, k ≤ s.B.len → s.pending = .caller (.truncate k) :: rest →
      ∃ t, step s = .next t ∧ t.B.bytes = s.B.bytes.take (s.B.len - k) ∧
        (∀ i, i < s.B.len - k → t.B.read i = s.B.read i) ∧ t.wf ∧
        t.D = s.D ∧ t.outcome = .running ∧ t.response = s.response ∧ t.pending = rest) ∧
    (∀ bs, s.pending = .caller (.initB bs) :: rest →
      ∃ t, step s = .next t ∧ t.B.bytes = bs ∧ t.wf ∧
        t.D = s.D ∧ t.outcome = .running ∧ t.response = s.response ∧ t.pending = rest) ∧
    (∀ bs, s.pending = .caller (.initD bs) :: rest →
      ∃ t, step s = .next t ∧ t.D.bytes = bs ∧ t.wf ∧
        t.B = s.B ∧ t.outcome = .running ∧ t.response = s.response ∧ t.pending = rest) ∧
    (∀ k, k ≤ s.D.len → s.pending = .caller (.copyToB k) :: rest →
      ∃ t, step s = .next t ∧ t.B.bytes = s.B.bytes ++ s.D.bytes.take k ∧ t.wf ∧
        t.D = s.D ∧ t.outcome = .running ∧ t.response = s.response ∧ t.pending = rest)

/-- R115 (assumption 7): a run in which the caller issues nothing more stays `running`, with the regions as the
last operation left them. -/
def Obligations.SilentCallerChangesNothing : Prop :=
  ∀ s : State, s.outcome = .running → s.pending = [] → step s = .next s

/-- A faulted run performs nothing more, whatever the caller issues, and its mark stays: R98, the spec's own
decision D8; that `step` then answers the fault itself is the model's choice (assumption 6). -/
def Obligations.FaultedRunPerformsNothing : Prop :=
  ∀ (s : State) (cap : Nat), s.outcome = .faulted cap →
    step s = .fault (.capacityViolation cap) ∧ Fault.code (.capacityViolation cap) = some 1 ∧
      ∀ t, Reaches s t → t = s

/-- R27, R113, the spec's own decision D13: a run starts `running` and without a response, whatever regions the
caller launches it with, and the block neither clears nor changes them. That reset itself has an empty buffer
and ten zero bytes in the slice is the model's choice (assumption 1), and not said here. -/
def Obligations.LaunchKeepsTheCallersRegions : Prop :=
  (∀ (b d : List Byte) (es : List Event),
    (State.launch b d es).B.bytes = b ∧ (State.launch b d es).D.bytes = d ∧
    (State.launch b d es).wf ∧ (State.launch b d es).outcome = .running ∧
    (State.launch b d es).response = none ∧ (State.launch b d es).pending = es) ∧
  State.reset.outcome = .running ∧ State.reset.response = none

/-! ### Encodings -/

/-- The operation each code selects: R61, the spec's own choice D3 (assumption 14). -/
def Obligations.OperationCodesSelect : Prop :=
  ∀ x : Word,
    decode (.request 0b000 x) = .encodeUnsignedInto x ∧
    decode (.request 0b001 x) = .encodeUnsignedAppend x ∧
    decode (.request 0b010 x) = .encodeSignedInto x ∧
    decode (.request 0b011 x) = .encodeSignedAppend x ∧
    decode (.request 0b100 x) = .decodeUnsigned ∧
    decode (.request 0b101 x) = .decodeSigned ∧
    decode (.request 0b110 x) = .reservedOp6 ∧
    decode (.request 0b111 x) = .reservedOp7

/-- A few words of the opcode table, written out from its rows, decode to the row's instruction. The table gives
a request three bits and a byte of an encoded value eight, and the numbers 0 to 7 are both; that these eight-bit
words 0 to 7, which are TERM_BYTE words too, are read as requests, with `val_in` 0, is the model's choice
(assumption 2, DESIGN CHOICE, unsafe). The codes themselves are the spec's decision D3 (assumption 14). -/
def Obligations.TableWordsDecodeToTheirRows : Prop :=
  decodeTableWord 8 0b000 = some (.encodeUnsignedInto 0) ∧
  decodeTableWord 8 0b001 = some (.encodeUnsignedAppend 0) ∧
  decodeTableWord 8 0b010 = some (.encodeSignedInto 0) ∧
  decodeTableWord 8 0b011 = some (.encodeSignedAppend 0) ∧
  decodeTableWord 8 0b100 = some .decodeUnsigned ∧
  decodeTableWord 8 0b101 = some .decodeSigned ∧
  decodeTableWord 8 0b110 = some .reservedOp6 ∧
  decodeTableWord 8 0b111 = some .reservedOp7 ∧
  decodeTableWord 8 0b01111111 = some (.termByte 127) ∧
  decodeTableWord 8 0b10000000 = some (.contByte 0)

/-- A request with op 6 or 7 is refused, whatever its other field and the state; it is neither the fault nor a
response: R62, the spec's own choice D3 (assumption 14). -/
def Obligations.ReservedCodesAreRefused : Prop :=
  ∀ (x : Word) (s : State),
    exec (decode (.request 6 x)) s = .refused (.reservedOp 6) ∧
    exec (decode (.request 7 x)) s = .refused (.reservedOp 7) ∧
    exec .reservedOp6 s = .refused (.reservedOp 6) ∧
    exec .reservedOp7 s = .refused (.reservedOp 7)

/-- There are six operations and no other (R8), so a byte of an encoded value is refused in place of one; that
the table's byte rows are refused at all, and do not only never arise, is the model's choice (assumption 15). -/
def Obligations.EncodedBytesAreNoOperations : Prop :=
  ∀ s : State,
    (∀ b : Byte, exec (decode (.encodedByte b)) s = .refused (.notAnOperation b)) ∧
    (∀ p : Group, exec (.termByte p) s = .refused (.notAnOperation (termByteOf p))) ∧
    (∀ p : Group, exec (.contByte p) s = .refused (.notAnOperation (contByteOf p)))

/-- R49: every byte value is a terminator, `0ppppppp`, or a continuation byte, `1ppppppp`, and none is reserved.
-/
def Obligations.EveryByteIsTermOrCont : Prop :=
  (∀ b : Byte,
    (b.toNat ≤ 0x7f ∧ contBit b = false ∧ (payload b).toNat = b.toNat ∧
      decode (.encodedByte b) = .termByte (payload b)) ∨
    (0x80 ≤ b.toNat ∧ contBit b = true ∧ (payload b).toNat + 0x80 = b.toNat ∧
      decode (.encodedByte b) = .contByte (payload b))) ∧
  (∀ p : Group, (termByteOf p).toNat = p.toNat ∧ (contByteOf p).toNat = 0x80 + p.toNat)

/-- Each thing that can be presented has one meaning: encoding what was decoded gives it back, but for the
`val_in` of a request whose operation reads none (R25). -/
def Obligations.EncodeUndoesDecode : Prop :=
  (∀ b : Byte, encode (decode (.encodedByte b)) = .encodedByte b) ∧
  (∀ (op : OpCode) (x : Word),
    encode (decode (.request op x)) = .request op (if op.toNat < 4 then x else 0))

/-- R65: `bitlength`. -/
def Obligations.BitlengthIsHighestSetBit : Prop :=
  bitlength 0 = 1 ∧
  (∀ (x : Word) (i : Nat), x.getLsbD i = true → (∀ j, i < j → x.getLsbD j = false) →
    bitlength x = i + 1) ∧
  (∀ x : Word, 1 ≤ bitlength x ∧ bitlength x ≤ 64) ∧
  (∀ x : Word, 1 ≤ x.toNat → 2 ^ (bitlength x - 1) ≤ x.toNat ∧ x.toNat < 2 ^ bitlength x) ∧
  bitlength 1 = 1 ∧ bitlength 127 = 7 ∧ bitlength 128 = 8 ∧
  bitlength (BitVec.ofNat 64 (2 ^ 63)) = 64 ∧ bitlength (BitVec.ofNat 64 (2 ^ 64 - 1)) = 64

/-- R66: the group count and the encoded length. -/
def Obligations.GroupCountGivesTheLength : Prop :=
  ∀ x : Word,
    groupCount x = (bitlength x - 1) / 7 ∧ groupCount x ≤ 9 ∧
    (enc x).length = groupCount x + 1 ∧
    ((enc x).length = 1 ↔ x.toNat ≤ 127) ∧
    ((enc x).length = 10 ↔ 2 ^ 63 ≤ x.toNat) ∧
    (groupCount x = 9 ↔ x.getLsbD 63 = true)

/-- R53, an inference of the spec's from R65 and R66: the encoded length by value and by bit length. -/
def Obligations.EncodedLengthByValue : Prop :=
  ∀ x : Word,
    (enc x).length = (bitlength x - 1) / 7 + 1 ∧
    ((enc x).length = 1 ↔ x.toNat ≤ 2 ^ 7 - 1) ∧
    (∀ k, 2 ≤ k → k ≤ 10 →
      ((enc x).length = k ↔ 2 ^ (7 * (k - 1)) ≤ x.toNat ∧ x.toNat ≤ 2 ^ (7 * k) - 1)) ∧
    (∀ k, 1 ≤ k → k ≤ 10 →
      ((enc x).length = k ↔ 7 * (k - 1) + 1 ≤ bitlength x ∧ bitlength x ≤ 7 * k))

/-- R67: a group is seven bits of the value, the bits above 63 read as 0. -/
def Obligations.GroupsAreSevenBits : Prop :=
  ∀ (x : Word) (k : Nat), k ≤ 9 →
    (group x k).toNat = (x.toNat >>> (7 * k)) &&& 0x7f ∧
    (∀ i, i < 7 → (group x k).getLsbD i = x.getLsbD (7 * k + i)) ∧
    (group x 9).toNat = (if x.getLsbD 63 then 1 else 0)

/-- R68: the byte sequence `enc(x)`, with the source's seven examples. -/
def Obligations.EncLaysOutTheGroups : Prop :=
  (∀ x : Word,
    (enc x).length = groupCount x + 1 ∧
    (enc x)[0]? = some (BitVec.ofNat 8 (group x (groupCount x)).toNat) ∧
    (∀ j, 1 ≤ j → j ≤ groupCount x →
      (enc x)[j]? = some (BitVec.ofNat 8 (0x80 ||| (group x (groupCount x - j)).toNat)))) ∧
  enc 0 = [0x00] ∧ enc 1 = [0x01] ∧ enc 2 = [0x02] ∧ enc 127 = [0x7f] ∧
  enc 128 = [0x01, 0x80] ∧ enc 255 = [0x01, 0xff] ∧ enc 256 = [0x02, 0x80]

/-- R69, items 1 to 5: an encoding is a form, its top group is not 0 unless it is the only one, and it denotes
the value, so that different values have different encodings. -/
def Obligations.EncodingsDenoteTheirValue : Prop :=
  (∀ x : Word,
    IsValueForm (enc x) ∧ formVal (enc x) = x.toNat ∧
    (1 ≤ groupCount x → (enc x)[0]? ≠ some 0) ∧
    (groupCount x = 0 → (enc x).map BitVec.toNat = [x.toNat]) ∧
    (groupCount x = 9 → (enc x)[0]? = some 1)) ∧
  (∀ x y : Word, enc x = enc y → x = y)

/-- R51: the value a form denotes, by its groups, and its bounds. -/
def Obligations.FormValueIsTheSumOfGroups : Prop :=
  ∀ e : List Byte, IsForm e →
    formVal e = ((List.range e.length).map fun j =>
      ((e[e.length - 1 - j]?.map fun b => (payload b).toNat).getD 0) * 2 ^ (7 * j)).sum ∧
    (e.length ≤ 9 → formVal e < 2 ^ 63) ∧
    (e.length = 10 →
      (formVal e < 2 ^ 64 ↔ ∃ b, e[0]? = some b ∧ (payload b).toNat ≤ 1))

/-- R54 (its criterion is the spec's inference): which forms are canonical, that is, written by the encoder; and
that the encoding of a value is its unique shortest form. -/
def Obligations.CanonicalFormsAreTheEncodings : Prop :=
  (∀ (b : Byte) (bs : List Byte), IsForm (b :: bs) →
    ((∃ x, enc x = b :: bs) ↔
      (bs.length + 1 = 1 ∨
       (2 ≤ bs.length + 1 ∧ bs.length + 1 ≤ 9 ∧ (payload b).toNat ≠ 0) ∨
       (bs.length + 1 = 10 ∧ (payload b).toNat = 1)))) ∧
  (∀ (x : Word) (e : List Byte), IsForm e → formVal e = x.toNat →
    (enc x).length ≤ e.length ∧ (e.length = (enc x).length → e = enc x))

/-- R19: the three constants and the lengths they bound, for unsigned and for signed values. -/
def Obligations.LengthConstantsBoundTheEncoding : Prop :=
  Config.maxLen16 = 3 ∧ Config.maxLen32 = 5 ∧ Config.maxLen64 = 10 ∧
  (∀ x : Word, (x.toNat ≤ 2 ^ 16 - 1 → (enc x).length ≤ Config.maxLen16) ∧
    (x.toNat ≤ 2 ^ 32 - 1 → (enc x).length ≤ Config.maxLen32) ∧
    (enc x).length ≤ Config.maxLen64) ∧
  (enc (BitVec.ofNat 64 (2 ^ 16 - 1))).length = 3 ∧
  (enc (BitVec.ofNat 64 (2 ^ 32 - 1))).length = 5 ∧
  (enc (BitVec.ofNat 64 (2 ^ 64 - 1))).length = 10 ∧
  (∀ v : Int, -2 ^ 63 ≤ v → v < 2 ^ 63 →
    (-2 ^ 15 ≤ v ∧ v < 2 ^ 15 → (enc (zz (bits64 v))).length ≤ 3) ∧
    (-2 ^ 31 ≤ v ∧ v < 2 ^ 31 → (enc (zz (bits64 v))).length ≤ 5) ∧
    (enc (zz (bits64 v))).length ≤ 10)

/-! ### The zig-zag map -/

/-- R74: the zig-zag map, on patterns and as integers, and that it is a bijection of `i64` onto `u64`. -/
def Obligations.ZigzagAsIntegers : Prop :=
  (∀ x : Word, zz x = (x <<< 1) ^^^ (if x.getLsbD 63 then 0xffffffffffffffff else 0)) ∧
  (∀ v : Int, 0 ≤ v → v ≤ 2 ^ 63 - 1 → ((zz (bits64 v)).toNat : Int) = 2 * v) ∧
  (∀ v : Int, -2 ^ 63 ≤ v → v ≤ -1 → ((zz (bits64 v)).toNat : Int) = -2 * v - 1) ∧
  Function.Bijective zz ∧ (∀ x : Word, unzz (zz x) = x) ∧
  (∀ v : Int, -2 ^ 63 ≤ v → v ≤ 2 ^ 63 - 1 → signed64 (bits64 v) = v) ∧
  (∀ x : Word, bits64 (signed64 x) = x)

/-- R75, an inference of the spec's from R74 and R53: the encoded length of a signed value, and the order in
which the two signs interleave. -/
def Obligations.SignedLengthByValue : Prop :=
  (∀ v : Int, -2 ^ 63 ≤ v → v ≤ 2 ^ 63 - 1 →
    ((enc (zz (bits64 v))).length = groupCount (zz (bits64 v)) + 1) ∧
    ((enc (zz (bits64 v))).length = 1 ↔ -64 ≤ v ∧ v ≤ 63) ∧
    (∀ k : Nat, 2 ≤ k → k ≤ 9 →
      ((enc (zz (bits64 v))).length = k ↔
        (-2 ^ (7 * k - 1) ≤ v ∧ v ≤ -2 ^ (7 * k - 8) - 1) ∨
        (2 ^ (7 * k - 8) ≤ v ∧ v ≤ 2 ^ (7 * k - 1) - 1))) ∧
    ((enc (zz (bits64 v))).length = 10 ↔ v ≤ -2 ^ 62 - 1 ∨ 2 ^ 62 ≤ v)) ∧
  zz (bits64 0) = 0 ∧ zz (bits64 (-1)) = 1 ∧ zz (bits64 1) = 2 ∧ zz (bits64 (-2)) = 3 ∧
  zz (bits64 2) = 4

/-- R91: the inverse map, as a pattern and as integers. The integer value for an odd `u` is an inference the
spec marks as its own in R91. -/
def Obligations.UnzigzagAsIntegers : Prop :=
  ∀ u : Word,
    unzz u = (if u.getLsbD 0 then ~~~(u >>> 1) else u >>> 1) ∧
    (u.toNat % 2 = 0 → signed64 (unzz u) = (u.toNat : Int) / 2) ∧
    (u.toNat % 2 = 1 → signed64 (unzz u) = -(((u.toNat : Int) + 1) / 2))

/-- R92, an inference of the spec's from R74 and R91: the two maps undo each other, with the extremes. -/
def Obligations.ZigzagMapsAreInverse : Prop :=
  (∀ x : Word, unzz (zz x) = x) ∧ (∀ u : Word, zz (unzz u) = u) ∧
  signed64 (unzz 0) = 0 ∧ signed64 (unzz 1) = -1 ∧ signed64 (unzz 2) = 1 ∧
  signed64 (unzz (BitVec.ofNat 64 (2 ^ 64 - 2))) = 2 ^ 63 - 1 ∧
  signed64 (unzz (BitVec.ofNat 64 (2 ^ 64 - 1))) = -2 ^ 63

/-! ### Encoders -/

/-- R70: an unsigned append always completes; it puts `enc(x)` at the tail of `B` and changes no other byte, not
`D`, not the outcome. -/
def Obligations.UnsignedAppendCompletes : Prop :=
  (∀ (s : State) (x : Word), s.B.wf →
    ∃ t, exec (.encodeUnsignedAppend x) s = .next t ∧
      t.B.bytes = s.B.bytes ++ enc x ∧ t.B.wf ∧ t.B.len = s.B.len + groupCount x + 1 ∧
      (∀ j, j < (enc x).length → t.B.read (s.B.len + j) = (enc x)[j]?) ∧
      (∀ a, a < s.B.len ∨ s.B.len + (enc x).length ≤ a → t.B.read a = s.B.read a) ∧
      t.D = s.D ∧ t.outcome = s.outcome ∧ t.pending = s.pending ∧
      t.response = some Response.appended) ∧
  enc 0 = [0x00] ∧ enc 300 = [0x02, 0xac] ∧
  enc (BitVec.ofNat 64 (2 ^ 64 - 1)) =
    [0x01, 0xff, 0xff, 0xff, 0xff, 0xff, 0xff, 0xff, 0xff, 0xff]

/-- R77: a signed append always completes; it puts `enc(zz(x))` at the tail of `B` and changes no other byte,
not `D`, not the outcome. -/
def Obligations.SignedAppendCompletes : Prop :=
  (∀ (s : State) (x : Word), s.B.wf →
    ∃ t, exec (.encodeSignedAppend x) s = .next t ∧
      t.B.bytes = s.B.bytes ++ enc (zz x) ∧ t.B.wf ∧
      t.B.len = s.B.len + groupCount (zz x) + 1 ∧
      (∀ j, j < (enc (zz x)).length → t.B.read (s.B.len + j) = (enc (zz x))[j]?) ∧
      (∀ a, a < s.B.len ∨ s.B.len + (enc (zz x)).length ≤ a → t.B.read a = s.B.read a) ∧
      t.D = s.D ∧ t.outcome = s.outcome ∧ t.pending = s.pending ∧
      t.response = some Response.appended) ∧
  enc (zz (bits64 0)) = [0x00] ∧ enc (zz (bits64 (-1))) = [0x01] ∧
  enc (zz (bits64 (-65))) = [0x01, 0x81] ∧
  enc (zz (bits64 (2 ^ 63 - 1))) =
    [0x01, 0xff, 0xff, 0xff, 0xff, 0xff, 0xff, 0xff, 0xff, 0xfe] ∧
  enc (zz (bits64 (-2 ^ 63))) =
    [0x01, 0xff, 0xff, 0xff, 0xff, 0xff, 0xff, 0xff, 0xff, 0xff]

/-- R71: an unsigned "into" encode completes for every value when `cap(D)` is at least 10: `enc(x)` at the front
of `D`, its length as the count, no other byte changed (the bytes after the written ones: the spec's own
decision D11, assumption 10). Below 10 it takes the fault and writes nothing (the spec's own decisions D7,
assumption 19, and D8 for the run outcome); that the fault shows as a next state with outcome `faulted` and a
response that is the fault is the model's choice (assumption 6, DESIGN CHOICE). -/
def Obligations.UnsignedIntoCompletes : Prop :=
  ∀ (s : State) (x : Word),
    (s.D.wf → 10 ≤ s.D.len →
      ∃ t, exec (.encodeUnsignedInto x) s = .next t ∧
        t.response = some (Response.written (groupCount x + 1)) ∧
        t.D.wf ∧ t.D.len = s.D.len ∧ t.D.bytes.take (groupCount x + 1) = enc x ∧
        (∀ j, j < groupCount x + 1 → t.D.read j = (enc x)[j]?) ∧
        (∀ a, groupCount x + 1 ≤ a → t.D.read a = s.D.read a) ∧
        t.B = s.B ∧ t.outcome = s.outcome ∧ t.pending = s.pending) ∧
    (s.D.len < 10 →
      ∃ t, exec (.encodeUnsignedInto x) s = .next t ∧
        t.outcome = .faulted s.D.len ∧ t.response = some (Response.faulted s.D.len) ∧
        t.D = s.D ∧ t.B = s.B ∧ t.pending = s.pending)

/-- R78: a signed "into" encode, as the unsigned one with `zz(x)`: the bytes after the written ones by the
spec's own decision D11 (assumption 10), the fault below 10 by its decisions D7 (assumption 19) and D8; that the
fault shows as a next state with outcome `faulted` and a response that is the fault is the model's choice
(assumption 6, DESIGN CHOICE). -/
def Obligations.SignedIntoCompletes : Prop :=
  ∀ (s : State) (x : Word),
    (s.D.wf → 10 ≤ s.D.len →
      ∃ t, exec (.encodeSignedInto x) s = .next t ∧
        t.response = some (Response.written (groupCount (zz x) + 1)) ∧
        t.D.wf ∧ t.D.len = s.D.len ∧ t.D.bytes.take (groupCount (zz x) + 1) = enc (zz x) ∧
        (∀ j, j < groupCount (zz x) + 1 → t.D.read j = (enc (zz x))[j]?) ∧
        (∀ a, groupCount (zz x) + 1 ≤ a → t.D.read a = s.D.read a) ∧
        t.B = s.B ∧ t.outcome = s.outcome ∧ t.pending = s.pending) ∧
    (s.D.len < 10 →
      ∃ t, exec (.encodeSignedInto x) s = .next t ∧
        t.outcome = .faulted s.D.len ∧ t.response = some (Response.faulted s.D.len) ∧
        t.D = s.D ∧ t.B = s.B ∧ t.pending = s.pending)

/-- R72, the spec's own decision D7 (assumption 19): the capacity check is against 10, whatever the value and
the length it needs, and precedes every write. The outcome `faulted` is the spec's own decision D8; that `exec`
answers a next state with it is the model's choice (assumption 6, DESIGN CHOICE). -/
def Obligations.CapacityCheckIgnoresTheValue : Prop :=
  ∀ (s : State) (i : Instr), s.D.wf → s.outcome = .running →
    (∃ x, i = .encodeUnsignedInto x ∨ i = .encodeSignedInto x) →
    ((∃ t, exec i s = .next t ∧ t.outcome = .faulted s.D.len ∧ t.D = s.D) ↔ s.D.len < 10)

/-- R97, an inference of the spec's from its decision D7 (assumptions 6 and 19): the fault is precise: the state
is the one before the operation, plus the fault outcome, and neither a count nor a value is produced. -/
def Obligations.CapacityViolationIsPrecise : Prop :=
  ∀ (s : State) (i : Instr), s.D.len < 10 →
    (∃ x, i = .encodeUnsignedInto x ∨ i = .encodeSignedInto x) →
    ∃ t, exec i s = .next t ∧ t.outcome = .faulted s.D.len ∧
      t.B = s.B ∧ t.D = s.D ∧
      (∀ a, t.B.read a = s.B.read a) ∧ (∀ a, t.D.read a = s.D.read a) ∧
      ∃ r, t.response = some r ∧ r.cnt = none ∧ r.valOut = none ∧ r.outcome = .fault s.D.len

/-- R64: the signed encoders are the zig-zag map followed by the unsigned encoder of the same variant. -/
def Obligations.SignedEncodersExpand : Prop :=
  ∀ (x : Word) (s : State),
    exec (.encodeSignedAppend x) s = exec (.encodeUnsignedAppend (zz x)) s ∧
    exec (.encodeSignedInto x) s = exec (.encodeUnsignedInto (zz x)) s

/-! ### Decoders -/

/-- R83: the last bytes of the buffer are a form of a 64-bit value: the decode answers its value and its length,
whatever stands before it. -/
def Obligations.UnsignedDecodeSucceeds : Prop :=
  ∀ (s : State) (before e : List Byte), s.B.wf → s.B.bytes = before ++ e → IsValueForm e →
    exec .decodeUnsigned s =
      .next { s with response := some (Response.decoded (BitVec.ofNat 64 (formVal e)) e.length) }

/-- R84, R99: a decode answers the count 0 exactly when the whole buffer is at most ten bytes, all continuation
bytes (or empty), and the value is then 0. -/
def Obligations.TooSmallExactly : Prop :=
  ∀ (s : State) (v : Word), s.B.wf →
    (exec .decodeUnsigned s = .next { s with response := some (Response.decoded v 0) } ↔
      v = 0 ∧ s.B.len ≤ 10 ∧ ∀ b ∈ s.B.bytes, contBit b = true)

/-- R85: ten continuation bytes at the end and an eleventh byte before them, whatever it is: overflow. That the
count is -11 and that the eleventh byte does not matter is the spec's own decision D9 (assumption 11). -/
def Obligations.OverflowByLength : Prop :=
  ∀ (s : State) (before cs : List Byte) (b : Byte), s.B.wf → s.B.bytes = before ++ b :: cs →
    cs.length = 10 → (∀ c ∈ cs, contBit c = true) →
    exec .decodeUnsigned s = .next { s with response := some (Response.decoded 0 (-11)) }

/-- R86: nine continuation bytes at the end and a terminator before them: overflow with count -10 when it is 2
or more; success with bit 63 equal to it when it is 0 or 1. -/
def Obligations.OverflowAtTheTenthByte : Prop :=
  ∀ (s : State) (before cs : List Byte) (b : Byte), s.B.wf → s.B.bytes = before ++ b :: cs →
    cs.length = 9 → (∀ c ∈ cs, contBit c = true) → contBit b = false →
    (2 ≤ b.toNat →
      exec .decodeUnsigned s = .next { s with response := some (Response.decoded 0 (-10)) }) ∧
    (b.toNat ≤ 1 →
      ∃ v : Word,
        exec .decodeUnsigned s = .next { s with response := some (Response.decoded v 10) } ∧
        (v.getLsbD 63 = true ↔ b.toNat = 1))

/-- R87, the spec's own decisions D15 and D9 (assumptions 11 and 13): a continuation byte at the tenth position
is no overflow at that step; the verdict is too small when the buffer ends there and -11 otherwise. -/
def Obligations.ContinuationAtTheTenthByte : Prop :=
  ∀ (s : State) (before cs : List Byte), s.B.wf → s.B.bytes = before ++ cs →
    cs.length = 10 → (∀ c ∈ cs, contBit c = true) →
    (before = [] →
      exec .decodeUnsigned s = .next { s with response := some (Response.decoded 0 0) }) ∧
    (before ≠ [] →
      exec .decodeUnsigned s = .next { s with response := some (Response.decoded 0 (-11)) })

/-- R58: the scan of R81 gives every buffer the verdict of its class; the classes rest on the spec's own
decisions D9, D10 and D15 (assumptions 11, 12, 13). -/
def Obligations.ScanAgreesWithTailClasses : Prop :=
  ∀ s : State, s.B.wf →
    (tailVerdict s.B.bytes).1 < 2 ^ 64 ∧
    exec .decodeUnsigned s =
      .next { s with response := some (Response.decoded
        (BitVec.ofNat 64 (tailVerdict s.B.bytes).1) (tailVerdict s.B.bytes).2) }

/-- R56, R90: a positive count is the length of the form at the end of the buffer, and the value is the one it
denotes: nothing else is ever a success. -/
def Obligations.SuccessMeansAFormAtTheTail : Prop :=
  ∀ (s t : State) (v : Word) (c : Int), s.B.wf → exec .decodeUnsigned s = .next t →
    t.response = some (Response.decoded v c) →
    (countClass c = .success ↔
      ∃ before e, s.B.bytes = before ++ e ∧ IsValueForm e ∧ c = e.length ∧ v.toNat = formVal e)

/-- R88, an inference of the spec's: the counts a decode can have (-11 is its decision D9, assumption 11), and
the value when the count is not positive. -/
def Obligations.DecodeCountsAreThirteen : Prop :=
  ∀ s t : State, exec .decodeUnsigned s = .next t →
    ∃ (v : Word) (c : Int), t.response = some (Response.decoded v c) ∧
      IsDecodeCount c ∧ (c ≤ 0 → v = 0)

/-- R89, an inference of the spec's (with its decision D9, assumption 11): a decode depends on the last ten
bytes and on whether there are more, and on nothing else; after any content, what the encoder wrote decodes to
its value and length. -/
def Obligations.DecodeDependsOnTheLastTenBytes : Prop :=
  (∀ (s t : State) (v : Word) (c : Int), s.B.wf → t.B.wf →
    s.B.bytes.drop (s.B.len - 10) = t.B.bytes.drop (t.B.len - 10) →
    (10 < s.B.len ↔ 10 < t.B.len) →
    exec .decodeUnsigned s = .next { s with response := some (Response.decoded v c) } →
    exec .decodeUnsigned t = .next { t with response := some (Response.decoded v c) }) ∧
  (∀ (s : State) (before : List Byte) (x : Word), s.B.wf → s.B.bytes = before ++ enc x →
    exec .decodeUnsigned s =
      .next { s with response := some (Response.decoded
        (BitVec.ofNat 64 (formVal (enc x))) (enc x).length) })

/-- R36: a decoder never changes the buffer, nor anything else but the response. -/
def Obligations.DecodersDoNotWrite : Prop :=
  ∀ (i : Instr) (s t : State), i = .decodeUnsigned ∨ i = .decodeSigned → exec i s = .next t →
    t.B = s.B ∧ t.B.len = s.B.len ∧ (∀ a, t.B.read a = s.B.read a) ∧
    t.D = s.D ∧ (∀ a, t.D.read a = s.D.read a) ∧ t.outcome = s.outcome ∧ t.pending = s.pending

/-- R94: the signed decoder completes whenever the unsigned one does, with the same count, and the inverse map
applied to the value; on failure the value is 0. -/
def Obligations.SignedDecodeFollowsUnsigned : Prop :=
  ∀ s : State, s.B.wf → ∃ (u : Word) (c : Int),
    exec .decodeUnsigned s = .next { s with response := some (Response.decoded u c) } ∧
    exec .decodeSigned s = .next { s with response := some (Response.decoded (unzz u) c) } ∧
    IsDecodeCount c ∧ (c ≤ 0 → unzz u = 0)

/-- R55, the spec's own decision D10 (assumption 12): a form padded with zero groups is accepted with its full
length, and no encoder writes it. -/
def Obligations.PaddedFormsAreAccepted : Prop :=
  (∀ (s : State) (before e : List Byte), s.B.wf → s.B.bytes = before ++ e → IsForm e →
    2 ≤ e.length → e.head? = some 0 →
    exec .decodeUnsigned s =
      .next { s with response := some (Response.decoded (BitVec.ofNat 64 (formVal e)) e.length) } ∧
    ¬ ∃ x, enc x = e) ∧
  formVal [0x00, 0x81] = 1 ∧
  formVal [0x00, 0x80, 0x80, 0x80, 0x80, 0x80, 0x80, 0x80, 0x80, 0x80] = 0

/-- R120, R121: after a decode that did not answer 0, the buffer has as many bytes as the magnitude of the
count, so the caller's truncation by it is defined; and decoding again without truncating answers the same. That
the response is kept over the truncation is the model's choice (assumption 8, DESIGN CHOICE, unsafe). -/
def Obligations.CountAllowsTruncation : Prop :=
  ∀ (s t : State) (i : Instr) (v : Word) (c : Int), s.B.wf → i = .decodeUnsigned ∨ i = .decodeSigned →
    exec i s = .next t → t.response = some (Response.decoded v c) →
    c.natAbs ≤ s.B.len ∧ exec i t = .next t ∧
    ∃ u, performCaller (.truncate c.natAbs) t = .next u ∧
      u.B.bytes = s.B.bytes.take (s.B.len - c.natAbs) ∧
      u.D = s.D ∧ u.outcome = s.outcome ∧ u.response = t.response

/-- R124, an inference of the spec's: a buffer whose last byte is below 0x80 decodes to that byte with count 1,
whoever wrote it. -/
def Obligations.LastByteBelow80IsAValue : Prop :=
  ∀ (s : State) (before : List Byte) (b : Byte), s.B.wf → s.B.bytes = before ++ [b] →
    b.toNat < 0x80 →
    exec .decodeUnsigned s =
      .next { s with response := some (Response.decoded (BitVec.ofNat 64 b.toNat) 1) }

/-! ### Encoders and decoders together -/

/-- R69 item 6: what an unsigned append wrote, after any content, decodes to the value and the encoded length.
-/
def Obligations.UnsignedRoundTrip : Prop :=
  ∀ (s : State) (x : Word), s.B.wf →
    ∃ t, exec (.encodeUnsignedAppend x) s = .next t ∧
      exec .decodeUnsigned t =
        .next { t with response := some (Response.decoded x (groupCount x + 1)) }

/-- R92, R93: the same for signed values, for every `i64`. -/
def Obligations.SignedRoundTrip : Prop :=
  ∀ (s : State) (v : Int), s.B.wf → -2 ^ 63 ≤ v → v ≤ 2 ^ 63 - 1 →
    ∃ t, exec (.encodeSignedAppend (bits64 v)) s = .next t ∧
      ∃ w, exec .decodeSigned t =
          .next { t with response := some (Response.decoded w (groupCount (zz (bits64 v)) + 1)) } ∧
        signed64 w = v

/-- R57, R120, R122: values appended one after another are read back in reverse order by decoding and
truncating, and the buffer is then what it was before the first append. -/
def Obligations.AppendedValuesReadBackReversed : Prop :=
  ∀ (s : State) (xs : List Word), s.B.wf →
    (∃ t u, appendValues .encodeUnsignedAppend xs s = some t ∧
      readBack .decodeUnsigned xs.length t = some (xs.reverse, u) ∧
      u.B = s.B ∧ u.D = s.D ∧ u.outcome = s.outcome ∧ u.pending = s.pending) ∧
    (∃ t u, appendValues .encodeSignedAppend xs s = some t ∧
      readBack .decodeSigned xs.length t = some (xs.reverse, u) ∧
      u.B = s.B ∧ u.D = s.D ∧ u.outcome = s.outcome ∧ u.pending = s.pending)

/-- R125, an inference of the spec's: the bytes an "into" encode counted, copied to the tail of `B`, are what
the append of the same value writes. -/
def Obligations.IntoThenCopyIsAppend : Prop :=
  ∀ (s : State) (i j : Instr) (x : Word), s.wf → 10 ≤ s.D.len →
    (i = .encodeUnsignedInto x ∧ j = .encodeUnsignedAppend x) ∨
      (i = .encodeSignedInto x ∧ j = .encodeSignedAppend x) →
    ∃ (t u w : State) (c : Nat),
      exec i s = .next t ∧ t.response = some (Response.written c) ∧
      performCaller (.copyToB c) t = .next u ∧ exec j s = .next w ∧ u.B = w.B

/-- R123, an inference of the spec's: a decoder that does not match the encoder raises nothing and answers the
zig-zag image. -/
def Obligations.MismatchedDecoderAnswersTheImage : Prop :=
  ∀ (s : State) (x : Word), s.B.wf →
    (∃ t, exec (.encodeSignedAppend x) s = .next t ∧
      exec .decodeUnsigned t =
        .next { t with response := some (Response.decoded (zz x) (groupCount (zz x) + 1)) }) ∧
    (∃ t, exec (.encodeUnsignedAppend x) s = .next t ∧
      exec .decodeSigned t =
        .next { t with response := some (Response.decoded (unzz x) (groupCount x + 1)) })

/-! ### The whole machine -/

/-- R38, an inference of the spec's: in a state whose regions are in canonical form no operation, caller action
or step accesses an index outside its region. -/
def Obligations.NoAccessOutsideARegion : Prop :=
  ∀ s : State, s.wf →
    (∀ (i : Instr) (r : Region) (k : Nat), exec i s ≠ .fault (.outsideRegion r k)) ∧
    (∀ (r : Region) (k : Nat), step s ≠ .fault (.outsideRegion r k))

/-- R14: no operation depends on an earlier one except through the regions: in two states with the same regions
it completes alike. -/
def Obligations.OperationsDependOnTheRegionsOnly : Prop :=
  ∀ (i : Instr) (s t : State), i.WellFormed → s.wf → s.B = t.B → s.D = t.D →
    ∃ s' t', exec i s = .next s' ∧ exec i t = .next t' ∧
      s'.B = t'.B ∧ s'.D = t'.D ∧ s'.response = t'.response

/-- R25, R34: an operation does not read the region it does not take, and leaves it unchanged. -/
def Obligations.OperationsReadTheirRegionOnly : Prop :=
  (∀ (i : Instr) (s t : State), s.B.wf → s.B = t.B →
    (∃ x, i = .encodeUnsignedAppend x ∨ i = .encodeSignedAppend x ∨ i = .decodeUnsigned ∨
      i = .decodeSigned) →
    ∃ s' t', exec i s = .next s' ∧ exec i t = .next t' ∧
      s'.B = t'.B ∧ s'.response = t'.response ∧ s'.D = s.D ∧ t'.D = t.D) ∧
  (∀ (i : Instr) (s t : State), s.D.wf → s.D = t.D →
    (∃ x, i = .encodeUnsignedInto x ∨ i = .encodeSignedInto x) →
    ∃ s' t', exec i s = .next s' ∧ exec i t = .next t' ∧
      s'.D = t'.D ∧ s'.response = t'.response ∧ s'.B = s.B ∧ t'.B = t.B)

/-- R44: an operation on `B` and one on `D` commute: in either order the regions and the outcome come out the
same. Two things here are the model's choice. R44 speaks of several callers or instances, and the model puts
their distinct regions on one run's `B` and `D` (assumption 18, DESIGN CHOICE). And when `cap(D)` is below 10
the second operation of one order is performed in a state already faulted, which R98 forbids within one run; it
is `exec`, the codec apart from the run, that performs it, since `exec` does not look at the outcome (assumption
6, DESIGN CHOICE). -/
def Obligations.OperationsOnDistinctRegionsCommute : Prop :=
  ∀ (s : State) (i j : Instr) (x y : Word), s.wf →
    i = .encodeUnsignedAppend x ∨ i = .encodeSignedAppend x ∨ i = .decodeUnsigned ∨ i = .decodeSigned →
    j = .encodeUnsignedInto y ∨ j = .encodeSignedInto y →
    ∃ t u t' u', exec i s = .next t ∧ exec j t = .next u ∧
      exec j s = .next t' ∧ exec i t' = .next u' ∧
      u.B = u'.B ∧ u.D = u'.D ∧ u.outcome = u'.outcome ∧
      t.response = u'.response ∧ u.response = t'.response

/-- 92_eei_decisions.md D5: with room for ten more bytes, an append keeps the buffer within a finite limit. -/
def Obligations.AppendStaysWithinBufCap : Prop :=
  ∀ (s : State) (bufCap : Nat) (x : Word) (i : Instr), s.roomToAppend bufCap →
    i = .encodeUnsignedAppend x ∨ i = .encodeSignedAppend x →
    ∃ t, exec i s = .next t ∧ s.B.len + 1 ≤ t.B.len ∧ t.B.len ≤ bufCap

/-- R88, R97: every step keeps the regions' canonical form, the responses among those the spec allows, and the
record of the fault. -/
def Obligations.StepKeepsInv : Prop :=
  ∀ s t : State, s.Inv → step s = .next t → t.Inv

/-- The invariant holds at reset and at every launch. -/
def Obligations.LaunchMeetsInv : Prop :=
  State.reset.Inv ∧
  ∀ (b d : List Byte) (es : List Event), (State.launch b d es).Inv

/-- R98, R118 (the fault is the spec's decisions D7 and D8): when the slice and every slice the caller still
hands over hold ten bytes, no state of the run is faulted and no step of it faults. -/
def Obligations.EstablishedCapacityMeansNoFault : Prop :=
  ∀ s : State, s.wf → s.outcome = .running → s.capacityEstablished → RunsWithoutFault s
end

