-- ==== Sys2Proof/Laws/Memory.lean ====
section
/-! SUPPORT. The regions: every operation keeps the canonical form, and in that form reading is looking up the
list of bytes. -/

namespace Sys2Proof.Machine

variable {m m' : Memory} {i j k : Nat} {b : Byte}

@[simp] theorem Memory.len_bytes (m : Memory) : m.bytes.length = m.len := by
  simp [Memory.bytes, Memory.len]

/-! ### Canonical form -/

/-- In canonical form the cell at position `i` has address `i`. -/
theorem Memory.wf_getElem (h : m.wf) (hi : i < m.length) : m[i].1 = i := by
  have hl : i < (m.map Prod.fst).length := by simpa using hi
  have : (m.map Prod.fst)[i] = (List.range m.length)[i]'(by simpa using hi) := by
    congr 1
  simpa using this

/-- The converse: cells whose addresses are their positions are in canonical form. -/
theorem Memory.wf_of_getElem (h : ∀ i (hi : i < m.length), m[i].1 = i) : m.wf := by
  refine List.ext_getElem (by simp) fun i h₁ h₂ => ?_
  simpa using h i (by simpa using h₁)

/-- Canonical form: addresses rise strictly. -/
theorem Memory.wf_rising (h : m.wf) : (m.map Prod.fst).Pairwise (· < ·) := by
  have : m.map Prod.fst = List.range m.length := h
  rw [this]; exact List.pairwise_lt_range

/-- Two regions in canonical form with the same bytes are the same data. -/
theorem Memory.eq_of_bytes (h : m.wf) (h' : m'.wf) (hb : m.bytes = m'.bytes) : m = m' := by
  have hl : m.length = m'.length := by
    have := congrArg List.length hb; simpa [Memory.bytes] using this
  refine List.ext_getElem hl fun i h₁ h₂ => Prod.ext ?_ ?_
  · rw [Memory.wf_getElem h h₁, Memory.wf_getElem h' h₂]
  · have : m.bytes[i]? = m'.bytes[i]? := by rw [hb]
    simpa [Memory.bytes, h₁, h₂] using this

theorem Memory.wf_ofBytes (bs : List Byte) : (Memory.ofBytes bs).wf := by
  refine Memory.wf_of_getElem fun i hi => ?_
  simp [Memory.ofBytes]

@[simp] theorem Memory.bytes_ofBytes (bs : List Byte) : (Memory.ofBytes bs).bytes = bs := by
  simp [Memory.bytes, Memory.ofBytes, List.map_snd_zip]

@[simp] theorem Memory.len_ofBytes (bs : List Byte) : (Memory.ofBytes bs).len = bs.length := by
  simp [Memory.len, Memory.ofBytes]

/-! ### Appending -/

theorem Memory.wf_append (h : m.wf) : (m.append b).wf := by
  have : m.map Prod.fst = List.range m.length := h
  simp [Memory.append, Memory.wf, this, Memory.len, List.range_succ]

@[simp] theorem Memory.bytes_append : (m.append b).bytes = m.bytes ++ [b] := by
  simp [Memory.append, Memory.bytes]

@[simp] theorem Memory.len_append : (m.append b).len = m.len + 1 := by
  simp [Memory.append, Memory.len]

theorem Memory.wf_appendAll (h : m.wf) (bs : List Byte) : (m.appendAll bs).wf := by
  induction bs generalizing m with
  | nil => exact h
  | cons b bs ih => exact ih (Memory.wf_append h)

@[simp] theorem Memory.bytes_appendAll (bs : List Byte) :
    (m.appendAll bs).bytes = m.bytes ++ bs := by
  induction bs generalizing m with
  | nil => simp [Memory.appendAll]
  | cons b bs ih =>
    have := ih (m := m.append b)
    simp only [Memory.appendAll, List.foldl_cons] at this ⊢
    rw [this]; simp

@[simp] theorem Memory.len_appendAll (bs : List Byte) :
    (m.appendAll bs).len = m.len + bs.length := by
  rw [← Memory.len_bytes, Memory.bytes_appendAll]; simp

/-! ### Reading -/

/-- In canonical form, reading is looking up the list of bytes. -/
theorem Memory.read_eq (h : m.wf) (i : Nat) : m.read i = m.bytes[i]? := by
  unfold Memory.read
  split
  · rename_i c hf
    obtain ⟨p, hp, hpc⟩ := List.getElem_of_mem (List.mem_of_find?_eq_some hf)
    have hc : c.1 = i := by simpa using List.find?_some hf
    have : p = i := by rw [← Memory.wf_getElem h hp, hpc, hc]
    subst this
    simp [Memory.bytes, hp, hpc]
  · rename_i hf
    have hn : m.length ≤ i := by
      by_contra hc
      have hi : i < m.length := by omega
      have := List.find?_eq_none.1 hf _ (List.getElem_mem hi)
      simp [Memory.wf_getElem h hi] at this
    simp [Memory.bytes, hn, Config.unlistedByte]

/-- A read outside the region has no value (R38). -/
theorem Memory.read_outside (h : m.wf) (hi : m.len ≤ i) : m.read i = none := by
  rw [Memory.read_eq h]; simpa using hi

/-- A read inside the region has one. -/
theorem Memory.read_inside (h : m.wf) (hi : i < m.len) : ∃ b, m.read i = some b := by
  rw [Memory.read_eq h]; exact ⟨m.bytes[i]'(by simpa using hi), by simp [hi]⟩

/-- An append leaves every byte before the old tail as it was. -/
theorem Memory.read_appendAll (h : m.wf) (bs : List Byte) (hi : i < m.len) :
    (m.appendAll bs).read i = m.read i := by
  rw [Memory.read_eq (Memory.wf_appendAll h bs), Memory.read_eq h, Memory.bytes_appendAll,
    List.getElem?_append_left (by simpa using hi)]

/-! ### Writing -/

theorem Memory.write_length (hw : m.write i b = some m') : m'.length = m.length := by
  unfold Memory.write at hw
  split at hw
  · injection hw with hw; simp [← hw]
  · cases hw

theorem Memory.wf_write (h : m.wf) (hw : m.write i b = some m') : m'.wf := by
  unfold Memory.write at hw
  split at hw
  · injection hw with hw
    subst hw
    refine Memory.wf_of_getElem fun p hp => ?_
    have hp' : p < m.length := by simpa using hp
    have := Memory.wf_getElem h hp'
    simp only [List.getElem_map]
    split <;> simp_all
  · cases hw

@[simp] theorem Memory.len_write (hw : m.write i b = some m') : m'.len = m.len :=
  Memory.write_length hw

/-- In canonical form, a write replaces one byte of the list. -/
theorem Memory.bytes_write (h : m.wf) (hw : m.write i b = some m') : m'.bytes = m.bytes.set i b := by
  unfold Memory.write at hw
  split at hw
  · injection hw with hw
    subst hw
    refine List.ext_getElem (by simp [Memory.len]) fun p h₁ h₂ => ?_
    have hp : p < m.length := by simpa [Memory.len] using h₁
    have := Memory.wf_getElem h hp
    simp only [Memory.bytes, List.getElem_map, List.getElem_set, this]
    by_cases hpi : p = i
    · simp [hpi]
    · simp [hpi, Ne.symm hpi]
  · cases hw

/-- A write inside the region has a result. -/
theorem Memory.write_inside (h : m.wf) (hi : i < m.len) : ∃ m', m.write i b = some m' := by
  obtain ⟨c, hc⟩ := Memory.read_inside h hi
  exact ⟨m.map fun c => if c.1 = i then (i, b) else c, by simp [Memory.write, hc]⟩

/-- Reading the byte just written. -/
theorem Memory.read_write_same (h : m.wf) (hw : m.write i b = some m') : m'.read i = some b := by
  have hi : i < m.len := by
    by_contra hc
    have := Memory.read_outside h (i := i) (by omega)
    simp [Memory.write, this] at hw
  rw [Memory.read_eq (Memory.wf_write h hw), Memory.bytes_write h hw]
  simp [hi]

/-- A write leaves every other byte as it was. -/
theorem Memory.read_write_ne (h : m.wf) (hw : m.write i b = some m') (hij : j ≠ i) :
    m'.read j = m.read j := by
  rw [Memory.read_eq (Memory.wf_write h hw), Memory.bytes_write h hw, Memory.read_eq h,
    List.getElem?_set_ne (Ne.symm hij)]

/-- Everything a run of writes can do: inside the region it succeeds, keeps the form and the length, and
replaces exactly the bytes written. -/
theorem Memory.writeAll_ok (bs : List Byte) (h : m.wf) (hj : j + bs.length ≤ m.len) :
    ∃ m', m.writeAll j bs = .ok m' ∧ m'.wf ∧ m'.len = m.len ∧
      m'.bytes = m.bytes.take j ++ bs ++ m.bytes.drop (j + bs.length) := by
  induction bs generalizing m j with
  | nil => exact ⟨m, rfl, h, rfl, by simp⟩
  | cons b bs ih =>
    simp only [List.length_cons] at hj
    obtain ⟨m₁, h₁⟩ := Memory.write_inside (b := b) h (i := j) (by omega)
    have hl : m₁.len = m.len := Memory.len_write h₁
    obtain ⟨m₂, h₂, hwf, hlen, hbytes⟩ := ih (j := j + 1) (Memory.wf_write h h₁) (by omega)
    refine ⟨m₂, by simp [Memory.writeAll, h₁, h₂], hwf, by omega, ?_⟩
    have hjl : j < m.bytes.length := by simp; omega
    rw [hbytes, Memory.bytes_write h h₁, List.take_add_one,
      List.take_set_of_le (Nat.le_refl j), List.drop_set_of_lt (by omega)]
    rw [List.getElem?_set_self hjl]
    simp [List.append_assoc, show j + 1 + bs.length = j + (bs.length + 1) by omega]

/-- A run of writes that succeeds keeps the canonical form, wherever it stands. -/
theorem Memory.writeAll_wf (bs : List Byte) (h : m.wf) (hw : m.writeAll j bs = .ok m') :
    m'.wf ∧ m'.len = m.len := by
  induction bs generalizing m j with
  | nil => injection hw with hw; subst hw; exact ⟨h, rfl⟩
  | cons b bs ih =>
    unfold Memory.writeAll at hw
    split at hw
    · cases hw
    · rename_i m₁ h₁
      obtain ⟨h₂, hl⟩ := ih (Memory.wf_write h h₁) hw
      exact ⟨h₂, hl.trans (Memory.len_write h₁)⟩

/-! ### Dropping the tail -/

theorem Memory.wf_dropTail (h : m.wf) (k : Nat) : (m.dropTail k).wf := by
  refine Memory.wf_of_getElem fun i hi => ?_
  have hi' : i < m.length := by
    have := hi; simp only [Memory.dropTail, List.length_take] at this; omega
  simpa [Memory.dropTail] using Memory.wf_getElem h hi'

@[simp] theorem Memory.bytes_dropTail (k : Nat) :
    (m.dropTail k).bytes = m.bytes.take (m.len - k) := by
  simp [Memory.dropTail, Memory.bytes]

@[simp] theorem Memory.len_dropTail (k : Nat) : (m.dropTail k).len = m.len - k := by
  simp [Memory.dropTail, Memory.len]

/-- Dropping what was appended gives the region back (R120, R122). -/
theorem Memory.dropTail_appendAll (m : Memory) (bs : List Byte) :
    (m.appendAll bs).dropTail bs.length = m := by
  have key : ∀ (bs : List Byte) (m : Memory), ∃ cs, m.appendAll bs = m ++ cs ∧ cs.length = bs.length := by
    intro bs
    induction bs with
    | nil => intro m; exact ⟨[], by simp [Memory.appendAll], rfl⟩
    | cons b bs ih =>
      intro m
      obtain ⟨cs, hcs, hl⟩ := ih (m.append b)
      exact ⟨(m.len, b) :: cs, by
        simp only [Memory.appendAll, List.foldl_cons] at hcs ⊢
        rw [hcs]; simp [Memory.append], by simp [hl]⟩
  obtain ⟨cs, hcs, hl⟩ := key bs m
  simp [Memory.dropTail, Memory.len, hcs, ← hl]

end Sys2Proof.Machine
end

