-- ==== Sys2Proof/Laws/Operands.lean ====
section
/-! SUPPORT. The byte fields, the length of an encoding and the value of its groups. -/

namespace Sys2Proof

/-! ### The two fields of a byte (R49) -/

@[simp] theorem contBit_termByteOf (p : Group) : contBit (termByteOf p) = false := by
  revert p; decide

@[simp] theorem contBit_contByteOf (p : Group) : contBit (contByteOf p) = true := by
  revert p; decide

@[simp] theorem payload_termByteOf (p : Group) : payload (termByteOf p) = p := by
  revert p; decide

@[simp] theorem payload_contByteOf (p : Group) : payload (contByteOf p) = p := by
  revert p; decide

/-- A byte with bit 7 clear is the terminator of its payload. -/
theorem termByteOf_payload {b : Byte} (h : contBit b = false) : termByteOf (payload b) = b := by
  revert b; decide

/-- A byte with bit 7 set is the continuation byte of its payload. -/
theorem contByteOf_payload {b : Byte} (h : contBit b = true) : contByteOf (payload b) = b := by
  revert b; decide

/-- A terminator, read as a number, is its payload. -/
theorem payload_toNat_of_term {b : Byte} (h : contBit b = false) :
    (payload b).toNat = b.toNat := by
  revert b; decide

namespace Machine

/-! ### Lengths -/

theorem bitlength_pos (x : Word) : 1 ≤ bitlength x := by simp [bitlength]

theorem bitlength_le (x : Word) : bitlength x ≤ 64 := by
  have h := x.isLt
  unfold bitlength
  by_cases h0 : x.toNat = 0
  · simp [h0]
  · have := (Nat.log2_lt h0).2 h; omega

/-- A value is below the power of two of its bit length. -/
theorem toNat_lt_bitlength (x : Word) : x.toNat < 2 ^ bitlength x := by
  unfold bitlength
  by_cases h0 : x.toNat = 0
  · simp [h0]
  · exact (Nat.log2_lt h0).1 (by omega)

/-- A value other than 0 reaches the power of two below its bit length. -/
theorem bitlength_le_toNat {x : Word} (h : x.toNat ≠ 0) : 2 ^ (bitlength x - 1) ≤ x.toNat := by
  simpa [bitlength] using Nat.log2_self_le h

theorem groupCount_le (x : Word) : groupCount x ≤ 9 := by
  have := bitlength_le x
  simp only [groupCount, Config.groupW]; omega

/-- The groups `0 .. n(x)` cover the value. -/
theorem toNat_lt_groups (x : Word) : x.toNat < 2 ^ (7 * (groupCount x + 1)) := by
  refine Nat.lt_of_lt_of_le (toNat_lt_bitlength x) (Nat.pow_le_pow_right (by omega) ?_)
  have := bitlength_pos x
  simp only [groupCount, Config.groupW]; omega

/-- The highest group of a value of more than one group is not 0. -/
theorem groups_le_toNat {x : Word} (h : groupCount x ≠ 0) : 2 ^ (7 * groupCount x) ≤ x.toNat := by
  have h0 : x.toNat ≠ 0 := fun hx => h (by simp [groupCount, bitlength, hx])
  refine Nat.le_trans (Nat.pow_le_pow_right (by omega) ?_) (bitlength_le_toNat h0)
  simp only [groupCount, Config.groupW]; omega

@[simp] theorem length_contGroups (x : Word) (k : Nat) : (contGroups x k).length = k := by
  induction k with
  | zero => rfl
  | succ k ih => simp [contGroups, ih]

@[simp] theorem length_enc (x : Word) : (enc x).length = groupCount x + 1 := by simp [enc]

theorem length_enc_le (x : Word) : (enc x).length ≤ 10 := by
  have := groupCount_le x; simp; omega

/-- An encoding has at most `k` bytes exactly when the value fits in `k` groups (R53). -/
theorem length_enc_le_iff (x : Word) {k : Nat} (hk : 1 ≤ k) :
    (enc x).length ≤ k ↔ x.toNat < 2 ^ (7 * k) := by
  rw [length_enc]
  constructor
  · intro h
    exact lt_of_lt_of_le (toNat_lt_groups x) (Nat.pow_le_pow_right (by omega) (by omega))
  · intro h
    by_cases h0 : groupCount x = 0
    · omega
    · have := (Nat.pow_lt_pow_iff_right (a := 2) (by omega)).1
        (lt_of_le_of_lt (groups_le_toNat h0) h)
      omega

theorem contBit_contGroups {x : Word} {k : Nat} {b : Byte} (h : b ∈ contGroups x k) :
    contBit b = true := by
  induction k with
  | zero => cases h
  | succ k ih =>
    rcases List.mem_cons.1 h with rfl | h
    · simp
    · exact ih h

/-! ### Values -/

theorem group_toNat (x : Word) (k : Nat) : (group x k).toNat = x.toNat / 2 ^ (7 * k) % 128 := by
  simp [group, Config.groupW, Nat.shiftRight_eq_div_pow]

/-- A sequence of bytes denotes less than its payload bits can hold. -/
theorem formVal_lt (bs : List Byte) : formVal bs < 2 ^ (7 * bs.length) := by
  induction bs with
  | nil => simp [formVal]
  | cons b bs ih =>
    have hp : (payload b).toNat < 128 := (payload b).isLt
    simp only [formVal, List.length_cons, Config.groupW]
    rw [show 7 * (bs.length + 1) = 7 * bs.length + 7 by omega, Nat.pow_add]
    generalize 2 ^ (7 * bs.length) = w at *
    nlinarith

/-- A form is a terminator followed by at most nine continuation bytes (R50). -/
theorem isForm_cons {e : List Byte} (h : IsForm e) :
    ∃ b cs, e = b :: cs ∧ contBit b = false ∧ (∀ c ∈ cs, contBit c = true) ∧ cs.length ≤ 9 := by
  obtain ⟨h1, h2, h3⟩ := h
  cases e with
  | nil => simp [formStartsWithTerminator] at h2
  | cons b cs =>
    simp [formLengthOk, formStartsWithTerminator, formContinues, Config.minLen,
      Config.maxLen64] at h1 h2 h3
    exact ⟨b, cs, rfl, h2, h3, by omega⟩

/-- The continuation bytes of the groups below `k` denote the value's low `7k` bits. -/
theorem formVal_contGroups (x : Word) (k : Nat) :
    formVal (contGroups x k) = x.toNat % 2 ^ (7 * k) := by
  induction k with
  | zero => simp [contGroups, formVal, Nat.mod_one]
  | succ k ih =>
    simp only [contGroups, formVal, payload_contByteOf, group_toNat, length_contGroups, ih,
      Config.groupW]
    rw [show 7 * (k + 1) = 7 * k + 7 by omega, Nat.pow_add, Nat.mod_mul]
    ring_nf

end Machine
end Sys2Proof
end

