-- ==== Sys2Proof/Laws/Scan.lean ====
section
/-! SUPPORT. The decoder's scan over a region in canonical form is a function of the region's bytes, read from
the tail: `scanTail`. Everything later about a decode cites `dec_eq` and not `scan`. -/

namespace Sys2Proof.Machine

/-- The scan over the list of bytes not yet met, the next one first. -/
def scanTail : Nat → Word → List Byte → Word × Int
  | 0, _, [] => (0, 0)
  | 0, _, _ :: _ => (0, -11)
  | _ + 1, _, [] => (0, 0)
  | r + 1, acc, b :: bs =>
    match byteStep (10 - (r + 1)) acc b with
    | .done v c => (v, c)
    | .goOn acc' => scanTail r acc' bs

theorem scan_eq {m : Memory} (h : m.wf) :
    ∀ (r : Nat) (acc : Word), r ≤ 10 → 10 - r ≤ m.len →
      scan m r acc = .ok (scanTail r acc (m.bytes.reverse.drop (10 - r))) := by
  intro r
  induction r with
  | zero =>
    intro acc _ hl
    by_cases he : m.len = 10
    · have : m.bytes.reverse.drop 10 = [] := by simp [he]
      simp [scan, scanTail, he, this]
    · obtain ⟨b, bs, hb⟩ : ∃ b bs, m.bytes.reverse.drop 10 = b :: bs := by
        rcases hd : m.bytes.reverse.drop 10 with _ | ⟨b, bs⟩
        · have := congrArg List.length hd; simp at this; omega
        · exact ⟨b, bs, rfl⟩
      simp [scan, scanTail, he, hb]
  | succ r ih =>
    intro acc hr hl
    by_cases he : m.len = 10 - (r + 1)
    · have : m.bytes.reverse.drop (10 - (r + 1)) = [] := by simp [he]
      rw [this]
      simp only [scan, scanTail, Config.maxLen64, if_pos he]
    · have hi : 10 - (r + 1) < m.bytes.reverse.length := by simp; omega
      have hcons := List.drop_eq_getElem_cons hi
      have hread : m.read (m.len - 1 - (10 - (r + 1))) = some (m.bytes.reverse[10 - (r + 1)]) := by
        rw [Memory.read_eq h, List.getElem?_eq_getElem (by simp; omega)]
        simp [List.getElem_reverse]
      rw [hcons]
      simp only [scan, scanTail, Config.maxLen64, if_neg he, hread]
      cases byteStep (10 - (r + 1)) acc (m.bytes.reverse[10 - (r + 1)]) with
      | done v c => rfl
      | goOn acc' =>
        have hs : 10 - (r + 1) + 1 = 10 - r := by omega
        rw [hs]
        exact ih acc' (by omega) (by omega)

/-- The decoder on a region in canonical form: no access outside the region, and a function of its bytes. -/
theorem dec_eq {m : Memory} (h : m.wf) : dec m = .ok (scanTail 10 0 m.bytes.reverse) := by
  simpa [dec] using scan_eq h 10 0 (by omega) (by omega)

/-! ### What a run of continuation bytes does to the scan -/

theorem byteStep_cont {b : Byte} (h : contBit b = true) (i : Nat) (acc : Word) :
    byteStep i acc b = .goOn (acc ||| placeAt i b) := by simp [byteStep, h]

theorem byteStep_term {b : Byte} (h : contBit b = false) {i : Nat} (hi : i < 9) (acc : Word) :
    byteStep i acc b = .done (acc ||| placeAt i b) (i + 1) := by
  have : i ≠ 9 := by omega
  simp [byteStep, h, this]

/-- The accumulator after `bs`, met at the steps `i`, `i + 1`, .... -/
def gather : Nat → Word → List Byte → Word
  | _, acc, [] => acc
  | i, acc, b :: bs => gather (i + 1) (acc ||| placeAt i b) bs

/-- Continuation bytes are accepted as long as positions are left. -/
theorem scanTail_conts (cs rest : List Byte) (hc : ∀ b ∈ cs, contBit b = true) :
    ∀ (r : Nat) (acc : Word), r ≤ 10 → cs.length ≤ r →
      scanTail r acc (cs ++ rest) =
        scanTail (r - cs.length) (gather (10 - r) acc cs) rest := by
  induction cs with
  | nil => intro r acc _ _; simp [gather]
  | cons b cs ih =>
    intro r acc hr hl
    obtain ⟨r, rfl⟩ : ∃ q, r = q + 1 := ⟨r - 1, by simp at hl; omega⟩
    have hb := byteStep_cont (hc b (by simp)) (10 - (r + 1)) acc
    simp only [List.cons_append, scanTail, hb, List.length_cons] at hl ⊢
    rw [ih (fun b hb => hc b (List.mem_cons_of_mem _ hb)) r _ (by omega) (by omega)]
    have h1 : r + 1 - (cs.length + 1) = r - cs.length := by omega
    have h2 : 10 - (r + 1) + 1 = 10 - r := by omega
    simp only [gather, h1, h2]

/-- Only continuation bytes, at most ten of them: too small (R84). -/
theorem scanTail_all_conts (cs : List Byte) (hc : ∀ b ∈ cs, contBit b = true)
    (hl : cs.length ≤ 10) (acc : Word) : scanTail 10 acc cs = (0, 0) := by
  have := scanTail_conts cs [] hc 10 acc (by omega) hl
  rw [List.append_nil] at this
  rw [this]
  cases 10 - cs.length <;> rfl

/-- A payload placed where it fits is multiplied by its weight. -/
theorem placeAt_toNat (i : Nat) (b : Byte) (h : 2 ^ (7 * i) * (payload b).toNat < 2 ^ 64) :
    (placeAt i b).toNat = 2 ^ (7 * i) * (payload b).toNat := by
  have hp : (payload b).toNat < 128 := (payload b).isLt
  simp only [placeAt, BitVec.toNat_shiftLeft, BitVec.toNat_setWidth, Config.groupW,
    Nat.shiftLeft_eq]
  rw [Nat.mod_eq_of_lt (a := (payload b).toNat) (by omega), Nat.mul_comm, Nat.mod_eq_of_lt h]

/-- A payload placed above everything gathered so far is added (R81: the groups never overlap). -/
theorem or_placeAt_toNat {i : Nat} {acc : Word} (b : Byte) (hacc : acc.toNat < 2 ^ (7 * i))
    (h : 2 ^ (7 * i) * (payload b).toNat < 2 ^ 64) :
    (acc ||| placeAt i b).toNat = acc.toNat + 2 ^ (7 * i) * (payload b).toNat := by
  rw [BitVec.toNat_or, placeAt_toNat i b h, Nat.or_comm, Nat.add_comm]
  exact (Nat.two_pow_add_eq_or_of_lt hacc _).symm

/-- The value of a sequence whose least significant group is `b`. -/
theorem formVal_concat (cs : List Byte) (b : Byte) :
    formVal (cs ++ [b]) = (payload b).toNat + 128 * formVal cs := by
  induction cs with
  | nil => simp [formVal]
  | cons c cs ih =>
    simp only [List.cons_append, formVal, ih, List.length_append, List.length_cons,
      List.length_nil, Config.groupW, Nat.mul_add, Nat.pow_add]
    ring_nf

/-- The accumulator's value: payloads at offsets 0, 7, 14, ... do not overlap below bit 63. -/
theorem gather_toNat (cs : List Byte) :
    ∀ (i : Nat) (acc : Word), acc.toNat < 2 ^ (7 * i) → i + cs.length ≤ 9 →
      (gather i acc cs).toNat = acc.toNat + 2 ^ (7 * i) * formVal cs.reverse ∧
        (gather i acc cs).toNat < 2 ^ (7 * (i + cs.length)) := by
  induction cs with
  | nil => intro i acc h _; simpa [gather, formVal] using h
  | cons b cs ih =>
    intro i acc hacc hi
    simp only [List.length_cons] at hi
    have hp : (payload b).toNat < 128 := (payload b).isLt
    have hw : (2 : Nat) ^ (7 * (i + 1)) = 2 ^ (7 * i) * 128 := by
      rw [show 7 * (i + 1) = 7 * i + 7 by omega, Nat.pow_add]
    have hle : (2 : Nat) ^ (7 * (i + 1)) ≤ 2 ^ 64 := Nat.pow_le_pow_right (by omega) (by omega)
    have hfit : 2 ^ (7 * i) * (payload b).toNat < 2 ^ (7 * (i + 1)) :=
      hw ▸ Nat.mul_lt_mul_of_pos_left hp (Nat.two_pow_pos _)
    have hor := or_placeAt_toNat b hacc (Nat.lt_of_lt_of_le hfit hle)
    have hlt : (acc ||| placeAt i b).toNat < 2 ^ (7 * (i + 1)) := by
      rw [hor, hw]
      have : 2 ^ (7 * i) * ((payload b).toNat + 1) ≤ 2 ^ (7 * i) * 128 :=
        Nat.mul_le_mul_left _ (by omega)
      rw [Nat.mul_add] at this; omega
    obtain ⟨h₁, h₂⟩ := ih (i + 1) _ hlt (by omega)
    refine ⟨?_, by simpa [gather, Nat.add_assoc, Nat.add_comm, Nat.add_left_comm] using h₂⟩
    simp only [gather, List.reverse_cons, formVal_concat, h₁, hor, hw]
    ring

/-! ### What the scan answers, by what stands at the tail -/

/-- A terminator before at most nine continuation bytes. -/
theorem scanTail_form (before cs : List Byte) (b : Byte) (hb : contBit b = false)
    (hc : ∀ c ∈ cs, contBit c = true) (hl : cs.length ≤ 9) :
    scanTail 10 0 (before ++ b :: cs).reverse =
      if cs.length = 9 ∧ 1 < b.toNat then ((0 : Word), (-10 : Int))
      else (BitVec.ofNat 64 (formVal (b :: cs)), (cs.length : Int) + 1) := by
  have hrev : (before ++ b :: cs).reverse = cs.reverse ++ (b :: before.reverse) := by simp
  rw [hrev, scanTail_conts cs.reverse _ (by simpa using hc) 10 0 (by omega) (by simp; omega)]
  obtain ⟨r, hr⟩ : ∃ r, 10 - cs.reverse.length = r + 1 := ⟨9 - cs.length, by simp; omega⟩
  have hi : 10 - (r + 1) = cs.length := by simp at hr; omega
  have hgather := gather_toNat cs.reverse 0 0 (by simp) (by simp; omega)
  have hg : (gather 0 0 cs.reverse).toNat = formVal cs := by simpa using hgather.1
  have hg2 : (gather 0 0 cs.reverse).toNat < 2 ^ (7 * cs.length) := by simpa using hgather.2
  rw [hr]
  simp only [scanTail, hi, byteStep, hb, Config.maxLen64, Bool.false_eq_true, if_false]
  by_cases h : cs.length = 9 ∧ 1 < b.toNat
  · simp [h]
  · have h' : ¬ (cs.length = 10 - 1 ∧ 1 < b.toNat) := by simpa using h
    rw [if_neg h', if_neg h]
    simp only [Prod.mk.injEq, and_true]
    have hp := payload_toNat_of_term hb
    have hp7 : (payload b).toNat < 128 := (payload b).isLt
    have h64 : 2 ^ (7 * cs.length) * (payload b).toNat < 2 ^ 64 := by
      rcases Nat.lt_or_ge cs.length 9 with h9 | h9
      · have : (2 : Nat) ^ (7 * cs.length) ≤ 2 ^ 56 := Nat.pow_le_pow_right (by omega) (by omega)
        have := Nat.mul_le_mul this hp7.le
        omega
      · have h9 : cs.length = 9 := by omega
        have := Nat.mul_le_mul_left (2 ^ (7 * cs.length)) (show (payload b).toNat ≤ 1 by omega)
        rw [h9] at this ⊢; omega
    have hor := or_placeAt_toNat b hg2 h64
    have hlt : (gather 0 0 cs.reverse ||| placeAt cs.length b).toNat < 2 ^ 64 := BitVec.isLt _
    apply BitVec.eq_of_toNat_eq
    rw [hor, hg] at hlt
    rw [show (10 - 10 : Nat) = 0 from rfl]
    rw [BitVec.toNat_ofNat, hor, hg]
    simp only [formVal, Config.groupW]
    rw [Nat.mul_comm (payload b).toNat, Nat.add_comm (2 ^ _ * _), Nat.mod_eq_of_lt hlt]

/-- Ten continuation bytes and one byte more: overflow by length, whatever that byte is (R85). -/
theorem scanTail_long (before cs : List Byte) (b : Byte) (hc : ∀ c ∈ cs, contBit c = true)
    (hl : cs.length = 10) : scanTail 10 0 (before ++ b :: cs).reverse = (0, -11) := by
  have hrev : (before ++ b :: cs).reverse = cs.reverse ++ (b :: before.reverse) := by simp
  rw [hrev, scanTail_conts cs.reverse _ (by simpa using hc) 10 0 (by omega) (by simp; omega)]
  simp [hl, scanTail]

/-- Every buffer is all continuation bytes, or has a last terminator. -/
theorem tail_split (l : List Byte) :
    (∀ c ∈ l, contBit c = true) ∨
      ∃ before b cs, l = before ++ b :: cs ∧ contBit b = false ∧ ∀ c ∈ cs, contBit c = true := by
  induction l with
  | nil => left; simp
  | cons a l ih =>
    rcases ih with h | ⟨p, b, cs, rfl, h1, h2⟩
    · by_cases ha : contBit a = true
      · left; simpa [ha] using h
      · right; exact ⟨[], a, l, rfl, by simpa using ha, h⟩
    · right; exact ⟨a :: p, b, cs, rfl, h1, h2⟩

/-- The last ten of more than ten bytes, and the byte before them. -/
theorem last_ten (l : List Byte) (h : 10 < l.length) :
    ∃ before b cs, l = before ++ b :: cs ∧ cs.length = 10 := by
  refine ⟨l.take (l.length - 11), l[l.length - 11], l.drop (l.length - 10), ?_, by simp; omega⟩
  have : l.length - 10 = l.length - 11 + 1 := by omega
  rw [this, List.getElem_cons_drop]; simp

/-- Everything the scan can answer, with what stands at the tail in each case. -/
theorem scanTail_cases (l : List Byte) :
    ((∀ c ∈ l, contBit c = true) ∧ l.length ≤ 10 ∧ scanTail 10 0 l.reverse = (0, 0)) ∨
    (∃ before b cs, l = before ++ b :: cs ∧ cs.length = 10 ∧ (∀ c ∈ cs, contBit c = true) ∧
      scanTail 10 0 l.reverse = (0, -11)) ∨
    (∃ before b cs, l = before ++ b :: cs ∧ contBit b = false ∧ (∀ c ∈ cs, contBit c = true) ∧
      cs.length = 9 ∧ 1 < b.toNat ∧ scanTail 10 0 l.reverse = (0, -10)) ∨
    (∃ before b cs, l = before ++ b :: cs ∧ contBit b = false ∧ (∀ c ∈ cs, contBit c = true) ∧
      cs.length ≤ 9 ∧ ¬ (cs.length = 9 ∧ 1 < b.toNat) ∧
      scanTail 10 0 l.reverse = (BitVec.ofNat 64 (formVal (b :: cs)), (cs.length : Int) + 1)) := by
  rcases tail_split l with h | ⟨p, b, cs, rfl, h1, h2⟩
  · by_cases hl : l.length ≤ 10
    · exact .inl ⟨h, hl, scanTail_all_conts _ (by simpa using h) (by simpa using hl) 0⟩
    · obtain ⟨p, b, cs, rfl, h3⟩ := last_ten l (by omega)
      have h4 : ∀ c ∈ cs, contBit c = true := fun c hc => h c (by simp [hc])
      exact .inr (.inl ⟨p, b, cs, rfl, h3, h4, scanTail_long p cs b h4 h3⟩)
  · by_cases hl : cs.length ≤ 9
    · have := scanTail_form p cs b h1 h2 hl
      by_cases hh : cs.length = 9 ∧ 1 < b.toNat
      · exact .inr (.inr (.inl ⟨p, b, cs, rfl, h1, h2, hh.1, hh.2, by rw [this, if_pos hh]⟩))
      · exact .inr (.inr (.inr ⟨p, b, cs, rfl, h1, h2, hl, hh, by rw [this, if_neg hh]⟩))
    · right; left
      obtain ⟨q, d, ds, hh, h3⟩ := last_ten (b :: cs) (by simp; omega)
      have h4 : ∀ c ∈ ds, contBit c = true := by
        intro c hc
        have hsuf : ds <:+ cs := by
          have h1 : d :: ds <:+ b :: cs := ⟨q, hh.symm⟩
          rcases List.suffix_cons_iff.1 h1 with h | h
          · injection h with _ h; exact h ▸ List.suffix_refl _
          · exact (List.suffix_cons d ds).trans h
        exact h2 c (hsuf.subset hc)
      exact ⟨p ++ q, d, ds, by rw [hh]; simp, h3, h4, by
        rw [hh, ← List.append_assoc]; exact scanTail_long (p ++ q) ds d h4 h3⟩

end Sys2Proof.Machine
end

