-- ==== Sys2Proof/Laws/State.lean ====
section
/-! SUPPORT. One lemma per field per update of the state. -/

namespace Sys2Proof.Machine

variable (s : State) (m : Memory) (o : RunOutcome) (r : Response) (es : List Event)

@[simp] theorem State.setB_B : (s.setB m).B = m := rfl
@[simp] theorem State.setB_D : (s.setB m).D = s.D := rfl
@[simp] theorem State.setB_outcome : (s.setB m).outcome = s.outcome := rfl
@[simp] theorem State.setB_response : (s.setB m).response = s.response := rfl
@[simp] theorem State.setB_pending : (s.setB m).pending = s.pending := rfl

@[simp] theorem State.setD_B : (s.setD m).B = s.B := rfl
@[simp] theorem State.setD_D : (s.setD m).D = m := rfl
@[simp] theorem State.setD_outcome : (s.setD m).outcome = s.outcome := rfl
@[simp] theorem State.setD_response : (s.setD m).response = s.response := rfl
@[simp] theorem State.setD_pending : (s.setD m).pending = s.pending := rfl

@[simp] theorem State.setOutcome_B : (s.setOutcome o).B = s.B := rfl
@[simp] theorem State.setOutcome_D : (s.setOutcome o).D = s.D := rfl
@[simp] theorem State.setOutcome_outcome : (s.setOutcome o).outcome = o := rfl
@[simp] theorem State.setOutcome_response : (s.setOutcome o).response = s.response := rfl
@[simp] theorem State.setOutcome_pending : (s.setOutcome o).pending = s.pending := rfl

@[simp] theorem State.setResponse_B : (s.setResponse r).B = s.B := rfl
@[simp] theorem State.setResponse_D : (s.setResponse r).D = s.D := rfl
@[simp] theorem State.setResponse_outcome : (s.setResponse r).outcome = s.outcome := rfl
@[simp] theorem State.setResponse_response : (s.setResponse r).response = some r := rfl
@[simp] theorem State.setResponse_pending : (s.setResponse r).pending = s.pending := rfl

@[simp] theorem State.setPending_B : (s.setPending es).B = s.B := rfl
@[simp] theorem State.setPending_D : (s.setPending es).D = s.D := rfl
@[simp] theorem State.setPending_outcome : (s.setPending es).outcome = s.outcome := rfl
@[simp] theorem State.setPending_response : (s.setPending es).response = s.response := rfl
@[simp] theorem State.setPending_pending : (s.setPending es).pending = es := rfl

@[simp] theorem takeCapacityViolation_B : (takeCapacityViolation s).B = s.B := rfl
@[simp] theorem takeCapacityViolation_D : (takeCapacityViolation s).D = s.D := rfl
@[simp] theorem takeCapacityViolation_outcome :
    (takeCapacityViolation s).outcome = .faulted s.D.len := rfl
@[simp] theorem takeCapacityViolation_response :
    (takeCapacityViolation s).response = some (Response.faulted s.D.len) := rfl
@[simp] theorem takeCapacityViolation_pending : (takeCapacityViolation s).pending = s.pending := rfl

@[simp] theorem Response.appended_valOut : Response.appended.valOut = none := rfl
@[simp] theorem Response.appended_cnt : Response.appended.cnt = none := rfl
@[simp] theorem Response.appended_outcome : Response.appended.outcome = .ok := rfl
@[simp] theorem Response.written_valOut (c : Int) : (Response.written c).valOut = none := rfl
@[simp] theorem Response.written_cnt (c : Int) : (Response.written c).cnt = some c := rfl
@[simp] theorem Response.written_outcome (c : Int) : (Response.written c).outcome = .ok := rfl
@[simp] theorem Response.decoded_valOut (v : Word) (c : Int) :
    (Response.decoded v c).valOut = some v := rfl
@[simp] theorem Response.decoded_cnt (v : Word) (c : Int) : (Response.decoded v c).cnt = some c := rfl
@[simp] theorem Response.decoded_outcome (v : Word) (c : Int) :
    (Response.decoded v c).outcome = .ok := rfl
@[simp] theorem Response.faulted_valOut (cap : Nat) : (Response.faulted cap).valOut = none := rfl
@[simp] theorem Response.faulted_cnt (cap : Nat) : (Response.faulted cap).cnt = none := rfl
@[simp] theorem Response.faulted_outcome (cap : Nat) :
    (Response.faulted cap).outcome = .fault cap := rfl

end Sys2Proof.Machine
end

