-- ==== Sys2Proof/Laws/Ops.lean ====
section
/-! SUPPORT. Everything each shared operation can do, said once. -/

namespace Sys2Proof.Machine

variable {s t : State}

/-! ### Encoders -/

/-- An append encode always answers, and this is its answer. -/
theorem appendEncoding_eq (u : Word) (s : State) :
    appendEncoding u s = .next ((s.setB (s.B.appendAll (enc u))).setResponse Response.appended) := rfl

/-- An "into" encode without the capacity takes the fault. -/
theorem intoEncoding_short (u : Word) (h : s.D.len < 10) :
    intoEncoding u s = .next (takeCapacityViolation s) := by simp [intoEncoding, h]

/-- An "into" encode with the capacity writes the encoding at the front of the slice and nothing else. -/
theorem intoEncoding_ok (u : Word) (hwf : s.D.wf) (h : 10 ≤ s.D.len) :
    ∃ d, intoEncoding u s = .next ((s.setD d).setResponse (Response.written (groupCount u + 1))) ∧
      d.wf ∧ d.len = s.D.len ∧ d.bytes = enc u ++ s.D.bytes.drop (groupCount u + 1) := by
  have hn := groupCount_le u
  obtain ⟨d, hd, hdwf, hlen, hbytes⟩ :=
    Memory.writeAll_ok (enc u) hwf (j := 0) (by simp; omega)
  refine ⟨d, ?_, hdwf, hlen, by simpa using hbytes⟩
  have : ¬ s.D.len < Config.maxLen64 := by simp only [Config.maxLen64]; omega
  simp only [intoEncoding, if_neg this, hd]

/-- What an "into" encode that answers a next state did. -/
theorem intoEncoding_cases {u : Word} (h : intoEncoding u s = .next t) :
    (s.D.len < 10 ∧ t = takeCapacityViolation s) ∨
    (10 ≤ s.D.len ∧ ∃ d, s.D.writeAll 0 (enc u) = .ok d ∧
      t = (s.setD d).setResponse (Response.written (groupCount u + 1))) := by
  unfold intoEncoding at h
  split at h
  · injection h with h; exact .inl ⟨‹_›, h.symm⟩
  · rename_i hc
    split at h
    · rename_i d hd
      injection h with h
      exact .inr ⟨by simp only [Config.maxLen64] at hc; omega, d, hd, h.symm⟩
    · cases h

/-! ### Decoders -/

/-- A decode over a buffer in canonical form always answers, and changes the response only. -/
theorem decodeWith_eq (f : Word → Word) (h : s.B.wf) :
    decodeWith f s = .next (s.setResponse
      (Response.decoded (f (scanTail 10 0 s.B.bytes.reverse).1) (scanTail 10 0 s.B.bytes.reverse).2)) := by
  simp [decodeWith, dec_eq h]

/-- What a decode that answers a next state did. -/
theorem decodeWith_cases {f : Word → Word} (h : decodeWith f s = .next t) :
    ∃ u c, dec s.B = .ok (u, c) ∧ t = s.setResponse (Response.decoded (f u) c) := by
  unfold decodeWith at h
  split at h
  · rename_i u c hd; injection h with h; exact ⟨u, c, hd, h.symm⟩
  · cases h

/-! ### The caller -/

/-- What a caller action that answers a next state did. -/
theorem performCaller_cases {a : CallerAction} (h : performCaller a s = .next t) :
    (∃ k, a = .truncate k ∧ k ≤ s.B.len ∧ t = s.setB (s.B.dropTail k)) ∨
    (∃ bs, a = .initB bs ∧ t = s.setB (Memory.ofBytes bs)) ∨
    (∃ bs, a = .initD bs ∧ t = s.setD (Memory.ofBytes bs)) ∨
    (∃ k, a = .copyToB k ∧ k ≤ s.D.len ∧ t = s.setB (s.B.appendAll (s.D.bytes.take k))) := by
  cases a with
  | truncate k =>
    simp only [performCaller] at h
    split at h
    · injection h with h; exact .inl ⟨k, rfl, ‹_›, h.symm⟩
    · cases h
  | initB bs => injection h with h; exact .inr (.inl ⟨bs, rfl, h.symm⟩)
  | initD bs => injection h with h; exact .inr (.inr (.inl ⟨bs, rfl, h.symm⟩))
  | copyToB k =>
    simp only [performCaller] at h
    split at h
    · injection h with h; exact .inr (.inr (.inr ⟨k, rfl, ‹_›, h.symm⟩))
    · cases h

/-- A caller action never faults. -/
theorem performCaller_no_fault (a : CallerAction) (s : State) (f : Fault) :
    performCaller a s ≠ .fault f := by
  cases a <;> simp only [performCaller] <;> (try split) <;> simp

/-! ### The dispatch and the step -/

/-- What an instruction that answers a next state did. -/
theorem exec_cases {i : Instr} (h : exec i s = .next t) :
    (∃ u, (i = .encodeUnsignedInto u ∧ intoEncoding u s = .next t) ∨
      (i = .encodeSignedInto u ∧ intoEncoding (zz u) s = .next t)) ∨
    (∃ u, (i = .encodeUnsignedAppend u ∧ appendEncoding u s = .next t) ∨
      (i = .encodeSignedAppend u ∧ appendEncoding (zz u) s = .next t)) ∨
    (i = .decodeUnsigned ∧ decodeWith (fun u => u) s = .next t) ∨
    (i = .decodeSigned ∧ decodeWith unzz s = .next t) := by
  cases i with
  | encodeUnsignedInto x => exact .inl ⟨x, .inl ⟨rfl, h⟩⟩
  | encodeUnsignedAppend x => exact .inr (.inl ⟨x, .inl ⟨rfl, h⟩⟩)
  | encodeSignedInto x => exact .inl ⟨x, .inr ⟨rfl, h⟩⟩
  | encodeSignedAppend x => exact .inr (.inl ⟨x, .inr ⟨rfl, h⟩⟩)
  | decodeUnsigned => exact .inr (.inr (.inl ⟨rfl, h⟩))
  | decodeSigned => exact .inr (.inr (.inr ⟨rfl, h⟩))
  | reservedOp6 => cases h
  | reservedOp7 => cases h
  | termByte p => cases h
  | contByte p => cases h

/-- What a step that answers a next state did. -/
theorem step_cases (h : step s = .next t) :
    s.outcome = .running ∧
      ((s.pending = [] ∧ t = s) ∨
       (∃ p rest, s.pending = .present p :: rest ∧ exec (decode p) (s.setPending rest) = .next t) ∨
       (∃ a rest, s.pending = .caller a :: rest ∧ performCaller a (s.setPending rest) = .next t)) := by
  unfold step at h
  split at h
  · cases h
  · rename_i ho
    refine ⟨ho, ?_⟩
    split at h
    · injection h with h; exact .inl ⟨‹_›, h.symm⟩
    · exact .inr (.inl ⟨_, _, ‹_›, h⟩)
    · exact .inr (.inr ⟨_, _, ‹_›, h⟩)

end Sys2Proof.Machine
end

