-- ==== Sys2Proof/Laws/PerInstr.lean ====
section
/-! SUPPORT. The statements made per instruction: decoding what the encoder presents gives the instruction
back. -/

namespace Sys2Proof.Laws.RoundTrip

/-- The decoder undoes the encoder on `i`. -/
def Statement (i : Instr) : Prop := decode (encode i) = i

theorem encodeUnsignedInto (x : Word) : Statement (.encodeUnsignedInto x) := rfl
theorem encodeUnsignedAppend (x : Word) : Statement (.encodeUnsignedAppend x) := rfl
theorem encodeSignedInto (x : Word) : Statement (.encodeSignedInto x) := rfl
theorem encodeSignedAppend (x : Word) : Statement (.encodeSignedAppend x) := rfl
theorem decodeUnsigned : Statement .decodeUnsigned := rfl
theorem decodeSigned : Statement .decodeSigned := rfl
theorem reservedOp6 : Statement .reservedOp6 := rfl
theorem reservedOp7 : Statement .reservedOp7 := rfl
theorem termByte (p : Group) : Statement (.termByte p) := by
  simp [Statement, encode, decode, decodeEncodedByte]
theorem contByte (p : Group) : Statement (.contByte p) := by
  simp [Statement, encode, decode, decodeEncodedByte]

end Sys2Proof.Laws.RoundTrip
end

