-- ==== Sys2Proof/Tests/Slice0.lean ====
section
/-! SUPPORT. Tests and witnesses. Expected results are the spec's own: the words of spec/opcode_table.json and
spec/30_encoding.md R61, the vectors of spec/95_test_vectors.md (the section is named at each test). The
witnesses show a state and operands that meet all hypotheses of the statement they are named after, one for each
clause, at the ends of the clause's range. -/

namespace Sys2Proof.Tests

open Sys2Proof.Machine

/-- A running state with the given regions and nothing pending. -/
def st (b d : List Byte) : State := State.launch b d []

/-- The same, with what the caller does next. -/
def stWith (b d : List Byte) (e : Event) : State := State.launch b d [e]

/-- `n` bytes `b`. -/
def fill (n : Nat) (b : Byte) : List Byte := List.replicate n b

/-- The next state, if the answer is one. -/
def answer (r : Result) : Option State :=
  match r with
  | .next t => some t
  | .fault _ => none
  | .refused _ => none

/-- What a test looks at: the bytes of `B` and of `D`, and the response. -/
def seen (r : Result) : Option (List Byte × List Byte × Option Response) :=
  (answer r).map fun t => (t.B.bytes, t.D.bytes, t.response)

/-! ### Decoding: words written out from the table -/

theorem test_decode_encode_unsigned_into :
    decode (.request 0b000 300) = .encodeUnsignedInto 300 := by decide
theorem test_decode_encode_unsigned_append :
    decode (.request 0b001 300) = .encodeUnsignedAppend 300 := by decide
theorem test_decode_encode_signed_into :
    decode (.request 0b010 0xffffffffffffffbf) = .encodeSignedInto 0xffffffffffffffbf := by decide
theorem test_decode_encode_signed_append :
    decode (.request 0b011 0xffffffffffffffbf) = .encodeSignedAppend 0xffffffffffffffbf := by decide
theorem test_decode_decode_unsigned : decode (.request 0b100 77) = .decodeUnsigned := by decide
theorem test_decode_decode_signed : decode (.request 0b101 77) = .decodeSigned := by decide
theorem test_decode_reserved_6 : decode (.request 0b110 0) = .reservedOp6 := by decide
theorem test_decode_reserved_7 : decode (.request 0b111 0) = .reservedOp7 := by decide
theorem test_decode_term_byte : decode (.encodedByte 0b01010101) = .termByte 0b1010101 := by decide
theorem test_decode_cont_byte : decode (.encodedByte 0b11010101) = .contByte 0b1010101 := by decide
theorem test_table_words :
    decodeTableWord 8 0b101 = some .decodeSigned ∧ decodeTableWord 8 0x80 = some (.contByte 0) ∧
    decodeTableWord 8 0x7f = some (.termByte 127) ∧ decodeTableWord 3 0b111 = some .reservedOp7 := by
  decide
theorem test_table_word_rejected :
    decodeTableWord 8 0x100 = none ∧ decodeTableWord 16 0x100 = none ∧ decodeTableWord 2 0b100 = none := by
  decide

/-! ### Well-formedness: an ill-formed term for each check -/

theorem test_wf_accepts_the_operations :
    (Instr.encodeUnsignedInto 0).WellFormed ∧ (Instr.encodeUnsignedAppend 0).WellFormed ∧
    (Instr.encodeSignedInto 0).WellFormed ∧ (Instr.encodeSignedAppend 0).WellFormed ∧
    Instr.decodeUnsigned.WellFormed ∧ Instr.decodeSigned.WellFormed := by decide
theorem test_wf_refuses_reserved_codes :
    ¬ Instr.reservedOp6.WellFormed ∧ ¬ Instr.reservedOp7.WellFormed := by decide
theorem test_wf_refuses_byte_formats :
    ¬ (Instr.termByte 1).WellFormed ∧ ¬ (Instr.contByte 1).WellFormed := by decide
theorem test_form_refuses_empty : formLengthOk [] = false := by decide
theorem test_form_refuses_eleven_bytes : formLengthOk (0x01 :: fill 10 0x80) = false := by decide
theorem test_form_refuses_leading_continuation : formStartsWithTerminator [0x80, 0x80] = false := by decide
theorem test_form_refuses_inner_terminator : formContinues [0x01, 0x00] = false := by decide
theorem test_form_refuses_large_tenth_byte : formFits (0x02 :: fill 9 0x80) = false := by decide

/-! ### One operation at a time (95_test_vectors.md) -/

/-- Section 2.3, row 4. -/
theorem test_encode_unsigned_into :
    seen (exec (.encodeUnsignedInto 0xdeadbeef) (st [] (fill 12 0xaa))) =
      some ([], [0x0d, 0xf5, 0xb6, 0xfd, 0xef] ++ fill 7 0xaa, some (Response.written 5)) := by decide

/-- Section 2.3, row 8: faults although the encoding would fit. -/
theorem test_encode_unsigned_into_short :
    (answer (exec (.encodeUnsignedInto 128) (st [0x05] (fill 2 0xaa)))).map
        (fun t => (t.outcome, t.B.bytes, t.D.bytes)) =
      some (.faulted 2, [0x05], [0xaa, 0xaa]) := by decide

/-- Section 2.2, row 5. -/
theorem test_encode_unsigned_append :
    seen (exec (.encodeUnsignedAppend 0xffffffffffffffff) (st [0x01, 0x80] [])) =
      some ([0x01, 0x80, 0x01] ++ fill 9 0xff, [], some Response.appended) := by decide

/-- Section 2.2, row 4: malformed content is not read. -/
theorem test_encode_unsigned_append_malformed :
    seen (exec (.encodeUnsignedAppend 128) (st [0xff, 0xff] [])) =
      some ([0xff, 0xff, 0x01, 0x80], [], some Response.appended) := by decide

/-- P3, step 3: the fifth byte is left over from before. -/
theorem test_encode_signed_into :
    seen (exec (.encodeSignedInto (bits64 (-123456789)))
        (st [] ([0x0d, 0xf5, 0xb6, 0xfd, 0xef] ++ fill 5 0xaa))) =
      some ([], [0x75, 0xde, 0xb4, 0xa9, 0xef] ++ fill 5 0xaa, some (Response.written 4)) := by decide

/-- Section 2.4, last paragraph: nine bytes are too few, even for 0. -/
theorem test_encode_signed_into_short :
    (answer (exec (.encodeSignedInto 0) (st [] (fill 9 0xbb)))).map (fun t => (t.outcome, t.response)) =
      some (.faulted 9, some (Response.faulted 9)) := by decide

/-- Section 2.4, the row of -2^62-1. -/
theorem test_encode_signed_append :
    seen (exec (.encodeSignedAppend (bits64 (-2 ^ 62 - 1))) (st [] [])) =
      some ([0x01] ++ fill 8 0x80 ++ [0x81], [], some Response.appended) := by decide

/-- Section 2.4, the row of `i64::MIN`. -/
theorem test_encode_signed_append_min :
    seen (exec (.encodeSignedAppend (bits64 (-2 ^ 63))) (st [] [])) =
      some ([0x01] ++ fill 9 0xff, [], some Response.appended) := by decide

/-- Section 2.5, last row. -/
theorem test_decode_unsigned :
    (answer (exec .decodeUnsigned
        (st [0x01, 0x91, 0xd1, 0xac, 0xf8, 0xcd, 0xaf, 0x9b, 0xef] []))).map State.response =
      some (some (Response.decoded 0x0123456789abcdef 9)) := by decide

/-- Section 2.5: an eleventh byte that is a terminator does not help. -/
theorem test_decode_unsigned_too_long :
    (answer (exec .decodeUnsigned (st (0x01 :: fill 10 0x80) []))).map State.response =
      some (some (Response.decoded 0 (-11))) := by decide

/-- Section 2.6, the row of `i64::MAX`. -/
theorem test_decode_signed :
    (answer (exec .decodeSigned (st ([0x01] ++ fill 8 0xff ++ [0xfe]) []))).map State.response =
      some (some (Response.decoded (bits64 (2 ^ 63 - 1)) 10)) := by decide

/-- Section 2.6, row 14. -/
theorem test_decode_signed_overflow :
    (answer (exec .decodeSigned (st (0x02 :: fill 9 0x80) []))).map State.response =
      some (some (Response.decoded 0 (-10))) := by decide

/-- Section 2.7. -/
theorem test_reserved_ops :
    exec .reservedOp6 (st [] []) = .refused (.reservedOp 6) ∧
    exec .reservedOp7 (st [] []) = .refused (.reservedOp 7) := ⟨rfl, rfl⟩

/-- R8: a byte is no operation. -/
theorem test_bytes_are_no_operation :
    exec (.termByte 5) (st [] []) = .refused (.notAnOperation 0x05) ∧
    exec (.contByte 5) (st [] []) = .refused (.notAnOperation 0x85) := ⟨rfl, rfl⟩

/-! ### The step, the caller and reset -/

/-- P1, step 8. -/
theorem test_truncate :
    seen (step (stWith [0x05, 0xc3, 0x02, 0x80] [] (.caller (.truncate 2)))) =
      some ([0x05, 0xc3], [], none) := by decide

/-- R12: `drop_tail` is not defined beyond the head. -/
theorem test_truncate_past_head :
    step (stWith [0x05] [] (.caller (.truncate 2))) = .refused (.truncatePastHead 2 1) := rfl

/-- P3, step 2. -/
theorem test_copy_to_buffer :
    seen (step (stWith [0x05] ([0x0d, 0xf5, 0xb6, 0xfd, 0xef] ++ fill 5 0xaa) (.caller (.copyToB 5)))) =
      some ([0x05, 0x0d, 0xf5, 0xb6, 0xfd, 0xef], [0x0d, 0xf5, 0xb6, 0xfd, 0xef] ++ fill 5 0xaa, none) := by
  decide

/-- P3, after step 9: nothing follows the fault. -/
theorem test_nothing_after_the_fault :
    step (takeCapacityViolation (stWith [0x05] (fill 9 0xbb) (.present (.request 4 0)))) =
      .fault (.capacityViolation 9) := rfl

theorem test_reset_wf : State.reset.wf := by decide

/-- The step from reset runs the placed word. -/
theorem test_first_step_after_reset :
    seen (step (State.reset.withFetchWord 8 0b000)) =
      some ([], fill 10 0, some (Response.written 1)) := by decide

/-! ### Witnesses -/

theorem witness_StepPerformsWhatIsPresented :
    let s := stWith [0x7f] [] (.present (.request 4 0))
    s.outcome = .running ∧ s.pending = .present (.request 4 0) :: [] := by decide

theorem witness_PlacedTableWordRunsNext :
    (State.reset.outcome = .running ∧ decodeTableWord 8 0 = some (.encodeUnsignedInto 0)) ∧
    decodeTableWord 8 255 = some (.contByte 127) := by decide

theorem witness_CallerActionsChangeTheirRegion :
    (let s := stWith [0x7f] [] (.caller (.truncate 1))
     s.outcome = .running ∧ s.wf ∧ 1 ≤ s.B.len ∧ s.pending = .caller (.truncate 1) :: []) ∧
    (let s := stWith [0x7f] [] (.caller (.initB []))
     s.outcome = .running ∧ s.wf ∧ s.pending = .caller (.initB []) :: []) ∧
    (let s := stWith [0x7f] [] (.caller (.initD [0x01]))
     s.outcome = .running ∧ s.wf ∧ s.pending = .caller (.initD [0x01]) :: []) ∧
    (let s := stWith [0x7f] [0x01] (.caller (.copyToB 1))
     s.outcome = .running ∧ s.wf ∧ 1 ≤ s.D.len ∧ s.pending = .caller (.copyToB 1) :: []) := by decide

theorem witness_SilentCallerChangesNothing :
    (st [0x7f] []).outcome = .running ∧ (st [0x7f] []).pending = [] := by decide

theorem witness_FaultedRunPerformsNothing :
    (takeCapacityViolation (st [] (fill 9 0))).outcome = .faulted 9 := by decide

theorem witness_BitlengthIsHighestSetBit :
    ((1 : Word).getLsbD 0 = true ∧ ∀ j, 0 < j → (1 : Word).getLsbD j = false) ∧
    ((BitVec.ofNat 64 (2 ^ 63)).getLsbD 63 = true ∧
      ∀ j, 63 < j → (BitVec.ofNat 64 (2 ^ 63)).getLsbD j = false) ∧
    1 ≤ (1 : Word).toNat := by
  refine ⟨⟨by decide, fun j hj => ?_⟩, ⟨by decide, fun j hj => ?_⟩, by decide⟩
  · simp; omega
  · exact BitVec.getLsbD_of_ge _ _ (by omega)

theorem witness_EncodedLengthByValue :
    (enc 128).length = 2 ∧ (2 ≤ 2 ∧ 2 ≤ 10) ∧
    (enc (BitVec.ofNat 64 (2 ^ 63))).length = 10 ∧ (2 ≤ 10 ∧ 10 ≤ 10) ∧ (1 ≤ 1 ∧ 1 ≤ 10) := by decide

theorem witness_GroupsAreSevenBits : (0 ≤ 9) ∧ (9 ≤ 9) ∧ (0 < 7) ∧ (6 < 7) := by decide

theorem witness_EncLaysOutTheGroups :
    1 ≤ 1 ∧ 1 ≤ groupCount 128 ∧ 9 ≤ groupCount (BitVec.ofNat 64 (2 ^ 63)) := by decide

theorem witness_EncodingsDenoteTheirValue :
    1 ≤ groupCount 128 ∧ groupCount 0 = 0 ∧ groupCount 127 = 0 ∧
    groupCount (BitVec.ofNat 64 (2 ^ 63)) = 9 ∧ enc 128 = enc 128 := by decide

theorem witness_FormValueIsTheSumOfGroups :
    IsForm [0x00] ∧ (IsForm (0x7f :: fill 8 0xff) ∧ (0x7f :: fill 8 0xff).length ≤ 9) ∧
    (IsForm (0x7f :: fill 9 0xff) ∧ (0x7f :: fill 9 0xff).length = 10) := by decide

theorem witness_CanonicalFormsAreTheEncodings :
    IsForm [0x00] ∧ IsForm [0x01, 0x80] ∧ IsForm (0x01 :: fill 9 0x80) ∧
    (IsForm [0x01, 0x80] ∧ formVal [0x01, 0x80] = (128 : Word).toNat ∧
      [0x01, 0x80].length = (enc 128).length) ∧
    (IsForm [0x00, 0x81] ∧ formVal [0x00, 0x81] = (1 : Word).toNat) := by decide

theorem witness_LengthConstantsBoundTheEncoding :
    (BitVec.ofNat 64 (2 ^ 16 - 1)).toNat ≤ 2 ^ 16 - 1 ∧
    (BitVec.ofNat 64 (2 ^ 32 - 1)).toNat ≤ 2 ^ 32 - 1 ∧
    ((-2 ^ 63 : Int) ≤ -2 ^ 15 ∧ (-2 ^ 15 : Int) < 2 ^ 63) ∧
    ((-2 ^ 31 : Int) ≤ 2 ^ 31 - 1 ∧ (2 ^ 31 - 1 : Int) < 2 ^ 31) := by decide

theorem witness_ZigzagAsIntegers :
    (0 ≤ (2 ^ 63 - 1 : Int) ∧ (2 ^ 63 - 1 : Int) ≤ 2 ^ 63 - 1) ∧
    ((-2 ^ 63 : Int) ≤ -2 ^ 63 ∧ (-2 ^ 63 : Int) ≤ -1) ∧ ((-2 ^ 63 : Int) ≤ -1 ∧ (-1 : Int) ≤ -1) := by
  decide

theorem witness_SignedLengthByValue :
    ((-2 ^ 63 : Int) ≤ -65 ∧ (-65 : Int) ≤ 2 ^ 63 - 1) ∧ (enc (zz (bits64 (-65)))).length = 2 ∧
    (2 ≤ 9 ∧ 9 ≤ 9) ∧ (enc (zz (bits64 (-2 ^ 62)))).length = 9 := by decide

theorem witness_UnzigzagAsIntegers :
    (BitVec.ofNat 64 (2 ^ 64 - 2)).toNat % 2 = 0 ∧ (BitVec.ofNat 64 (2 ^ 64 - 1)).toNat % 2 = 1 := by
  decide

theorem witness_UnsignedAppendCompletes : (st [0xff, 0xff] [0x01]).B.wf ∧ (st [] []).B.wf := by decide
theorem witness_SignedAppendCompletes : (st [0x7f] [0x01]).B.wf ∧ (st [] []).B.wf := by decide
theorem witness_TooSmallExactly :
    ((st (fill 10 0xff) []).B.wf ∧ (st (fill 10 0xff) []).B.len ≤ 10 ∧
      ∀ b ∈ (st (fill 10 0xff) []).B.bytes, contBit b = true) ∧ (st [] []).B.wf := by decide
theorem witness_ScanAgreesWithTailClasses :
    (st [] []).B.wf ∧ (st (fill 10 0xff) []).B.wf ∧ (st (0x01 :: fill 9 0x80) []).B.wf := by decide
theorem witness_SignedDecodeFollowsUnsigned : (st [0x01, 0x81] []).B.wf := by decide
theorem witness_UnsignedRoundTrip : (st [0xff] []).B.wf ∧ (st [] []).B.wf := by decide
theorem witness_AppendedValuesReadBackReversed : (st [0x05, 0xc3] []).B.wf := by decide
theorem witness_MismatchedDecoderAnswersTheImage : (st [0xc3] []).B.wf := by decide
theorem witness_NoAccessOutsideARegion :
    (stWith [0x80] (fill 10 0) (.present (.request 4 0))).wf ∧ (st [] []).wf := by decide

theorem witness_SignedRoundTrip :
    (st [0x05] []).B.wf ∧ ((-2 ^ 63 : Int) ≤ -2 ^ 63 ∧ (-2 ^ 63 : Int) ≤ 2 ^ 63 - 1) ∧
    ((-2 ^ 63 : Int) ≤ 2 ^ 63 - 1 ∧ (2 ^ 63 - 1 : Int) ≤ 2 ^ 63 - 1) := by decide

theorem witness_UnsignedIntoCompletes :
    ((st [] (fill 10 0xaa)).D.wf ∧ 10 ≤ (st [] (fill 10 0xaa)).D.len) ∧
    (st [] (fill 9 0xaa)).D.len < 10 ∧ (st [] []).D.len < 10 := by decide

theorem witness_SignedIntoCompletes :
    ((st [0x01] (fill 11 0xaa)).D.wf ∧ 10 ≤ (st [0x01] (fill 11 0xaa)).D.len) ∧
    (st [0x01] (fill 9 0xaa)).D.len < 10 := by decide

theorem witness_CapacityCheckIgnoresTheValue :
    ((st [] (fill 9 0)).D.wf ∧ (st [] (fill 9 0)).outcome = .running) ∧
    ((st [] (fill 10 0)).D.wf ∧ (st [] (fill 10 0)).outcome = .running) ∧
    (∃ x, Instr.encodeUnsignedInto 7 = .encodeUnsignedInto x ∨
      Instr.encodeUnsignedInto 7 = .encodeSignedInto x) ∧
    (∃ x, Instr.encodeSignedInto 7 = .encodeUnsignedInto x ∨
      Instr.encodeSignedInto 7 = .encodeSignedInto x) :=
  ⟨by decide, by decide, ⟨7, .inl rfl⟩, ⟨7, .inr rfl⟩⟩

theorem witness_CapacityViolationIsPrecise :
    (st [0x01] (fill 9 0)).D.len < 10 ∧
    (∃ x, Instr.encodeSignedInto 7 = .encodeUnsignedInto x ∨
      Instr.encodeSignedInto 7 = .encodeSignedInto x) := ⟨by decide, ⟨7, .inr rfl⟩⟩

theorem witness_UnsignedDecodeSucceeds :
    (let s := st [0x7f, 0x02, 0xac] []
     s.B.wf ∧ s.B.bytes = [0x7f] ++ [0x02, 0xac] ∧ IsValueForm [0x02, 0xac]) ∧
    (let s := st (0x01 :: fill 9 0xff) []
     s.B.wf ∧ s.B.bytes = [] ++ (0x01 :: fill 9 0xff) ∧ IsValueForm (0x01 :: fill 9 0xff)) := by decide

theorem witness_OverflowByLength :
    let s := st (0x07 :: 0x01 :: fill 10 0x80) []
    s.B.wf ∧ s.B.bytes = [0x07] ++ 0x01 :: fill 10 0x80 ∧ (fill 10 0x80).length = 10 ∧
      ∀ c ∈ fill 10 0x80, contBit c = true := by decide

theorem witness_OverflowAtTheTenthByte :
    (let s := st (0x55 :: 0x02 :: fill 9 0x80) []
     s.B.wf ∧ s.B.bytes = [0x55] ++ 0x02 :: fill 9 0x80 ∧ (fill 9 0x80).length = 9 ∧
       (∀ c ∈ fill 9 0x80, contBit c = true) ∧ contBit 0x02 = false ∧ 2 ≤ (0x02 : Byte).toNat) ∧
    (let s := st (0x01 :: fill 9 0x80) []
     s.B.wf ∧ s.B.bytes = [] ++ 0x01 :: fill 9 0x80 ∧ (fill 9 0x80).length = 9 ∧
       (∀ c ∈ fill 9 0x80, contBit c = true) ∧ contBit 0x01 = false ∧ (0x01 : Byte).toNat ≤ 1) := by decide

theorem witness_ContinuationAtTheTenthByte :
    (let s := st (fill 10 0xff) []
     s.B.wf ∧ s.B.bytes = [] ++ fill 10 0xff ∧ (fill 10 0xff).length = 10 ∧
       ∀ c ∈ fill 10 0xff, contBit c = true) ∧
    (let s := st (0x00 :: fill 10 0xff) []
     s.B.wf ∧ s.B.bytes = [0x00] ++ fill 10 0xff ∧ ([0x00] : List Byte) ≠ [] ∧
       ∀ c ∈ fill 10 0xff, contBit c = true) := by decide

theorem witness_DecodeCountsAreThirteen :
    (∃ t, exec .decodeUnsigned (st [0x7f] []) = .next t) ∧
    (∃ t, exec .decodeUnsigned (st (fill 11 0xff) []) = .next t) := ⟨⟨_, rfl⟩, ⟨_, rfl⟩⟩

theorem witness_DecodersDoNotWrite :
    (∃ t, exec .decodeUnsigned (st [0x7f] [0x01]) = .next t) ∧
    (∃ t, exec .decodeSigned (st [] [0x01]) = .next t) := ⟨⟨_, rfl⟩, ⟨_, rfl⟩⟩

theorem witness_CountAllowsTruncation :
    (∃ t, exec .decodeUnsigned (st [0x7f, 0x02, 0xac] []) = .next t ∧
      t.response = some (Response.decoded 300 2)) ∧
    (∃ t, exec .decodeSigned (st (0x01 :: fill 10 0x80) []) = .next t ∧
      t.response = some (Response.decoded 0 (-11))) ∧
    (st [0x7f, 0x02, 0xac] []).B.wf ∧ (st (0x01 :: fill 10 0x80) []).B.wf :=
  ⟨⟨_, rfl, rfl⟩, ⟨_, rfl, rfl⟩, by decide, by decide⟩

theorem witness_SuccessMeansAFormAtTheTail :
    (st [0x00, 0x80] []).B.wf ∧
    ∃ t, exec .decodeUnsigned (st [0x00, 0x80] []) = .next t ∧
      t.response = some (Response.decoded 0 2) := ⟨by decide, _, rfl, rfl⟩

theorem witness_DecodeDependsOnTheLastTenBytes :
    (let s := st (0x05 :: 0x01 :: fill 9 0xff) []
     let t := st (0x80 :: 0x80 :: 0x01 :: fill 9 0xff) []
     s.B.wf ∧ t.B.wf ∧ s.B.bytes.drop (s.B.len - 10) = t.B.bytes.drop (t.B.len - 10) ∧
       (10 < s.B.len ↔ 10 < t.B.len)) ∧
    (∃ v, exec .decodeUnsigned (st (0x05 :: 0x01 :: fill 9 0xff) []) =
      .next { st (0x05 :: 0x01 :: fill 9 0xff) [] with response := some (Response.decoded v 10) }) ∧
    ((st [0xff, 0x01, 0x80] []).B.wf ∧ (st [0xff, 0x01, 0x80] []).B.bytes = [0xff] ++ enc 128) :=
  ⟨by decide, ⟨0xffffffffffffffff, rfl⟩, by decide⟩

theorem witness_PaddedFormsAreAccepted :
    (let s := st [0x00, 0x81] []
     s.B.wf ∧ s.B.bytes = [] ++ [0x00, 0x81] ∧ IsForm [0x00, 0x81] ∧ 2 ≤ ([0x00, 0x81] : List Byte).length ∧
       ([0x00, 0x81] : List Byte).head? = some 0) ∧
    (IsForm (0x00 :: fill 9 0x80) ∧ (0x00 :: fill 9 0x80).head? = some 0) := by decide

theorem witness_LastByteBelow80IsAValue :
    let s := st [0x80, 0x7f] []
    s.B.wf ∧ s.B.bytes = [0x80] ++ [0x7f] ∧ (0x7f : Byte).toNat < 0x80 := by decide

theorem witness_IntoThenCopyIsAppend :
    (st [0x05] (fill 10 0xaa)).wf ∧ 10 ≤ (st [0x05] (fill 10 0xaa)).D.len ∧
    ((Instr.encodeUnsignedInto 7 = .encodeUnsignedInto 7 ∧
        Instr.encodeUnsignedAppend 7 = .encodeUnsignedAppend 7) ∧
      (Instr.encodeSignedInto 7 = .encodeSignedInto 7 ∧
        Instr.encodeSignedAppend 7 = .encodeSignedAppend 7)) := by decide

theorem witness_OperationsDependOnTheRegionsOnly :
    let s := st [0x01] (fill 10 0xaa)
    let t := s.setResponse Response.appended
    Instr.decodeSigned.WellFormed ∧ s.wf ∧ s.B = t.B ∧ s.D = t.D ∧ s.response ≠ t.response := by decide

theorem witness_OperationsReadTheirRegionOnly :
    ((st [0x01] []).B.wf ∧ (st [0x01] []).B = (st [0x01] [0x02]).B) ∧
    (∃ x, Instr.decodeSigned = .encodeUnsignedAppend x ∨ Instr.decodeSigned = .encodeSignedAppend x ∨
      Instr.decodeSigned = .decodeUnsigned ∨ Instr.decodeSigned = .decodeSigned) ∧
    ((st [] (fill 10 0)).D.wf ∧ (st [] (fill 10 0)).D = (st [0x02] (fill 10 0)).D) ∧
    ((st [] (fill 9 0)).D.wf ∧ (st [] (fill 9 0)).D = (st [0x02] (fill 9 0)).D) ∧
    (∃ x, Instr.encodeSignedInto 3 = .encodeUnsignedInto x ∨
      Instr.encodeSignedInto 3 = .encodeSignedInto x) :=
  ⟨by decide, ⟨0, .inr (.inr (.inr rfl))⟩, by decide, by decide, ⟨3, .inr rfl⟩⟩

theorem witness_OperationsOnDistinctRegionsCommute :
    (st [0x05] (fill 10 0xaa)).wf ∧ (st [0x05] (fill 9 0xaa)).wf ∧
    Instr.decodeSigned = .decodeSigned ∧ Instr.encodeSignedInto 3 = .encodeSignedInto 3 := by decide

theorem witness_AppendStaysWithinBufCap : (st [] []).roomToAppend 10 := by
  show (st [] []).B.len + 10 ≤ 10
  decide

theorem witness_StepKeepsInv :
    (stWith [] (fill 9 0) (.present (.request 0 7))).Inv ∧
    ∃ t, step (stWith [] (fill 9 0) (.present (.request 0 7))) = .next t ∧ t.outcome = .faulted 9 := by
  refine ⟨⟨by decide, ?_, ?_⟩, _, rfl, rfl⟩
  · intro cap h; cases h
  · intro r h; cases h

theorem witness_EstablishedCapacityMeansNoFault :
    let s := stWith [0x05] (fill 10 0xaa) (.caller (.initD (fill 10 0)))
    s.wf ∧ s.outcome = .running ∧ s.capacityEstablished := by
  refine ⟨by decide, by decide, by decide, ?_⟩
  intro e he
  have : e = .caller (.initD (fill 10 0)) := List.mem_singleton.1 he
  subst this
  show 10 ≤ (fill 10 0).length
  decide

end Sys2Proof.Tests
end

/-! PROOFS of the family `00_scope.md`: what a byte of an encoded value does when it is issued in place of an
operation. -/

namespace Sys2Proof

/-! ### Decoding a byte, by its bit 7 (R49) -/

theorem decode_encodedByte_of_term {b : Byte} (h : contBit b = false) :
    decode (.encodedByte b) = .termByte (payload b) := by
  simp [decode, decodeEncodedByte, h]

theorem decode_encodedByte_of_cont {b : Byte} (h : contBit b = true) :
    decode (.encodedByte b) = .contByte (payload b) := by
  simp [decode, decodeEncodedByte, h]

namespace Machine

/-! ### Executing the two byte formats (R8) -/

@[simp] theorem exec_termByte (p : Group) (s : State) :
    exec (.termByte p) s = .refused (.notAnOperation (termByteOf p)) := rfl

@[simp] theorem exec_contByte (p : Group) (s : State) :
    exec (.contByte p) s = .refused (.notAnOperation (contByteOf p)) := rfl

/-- The refusal names the byte presented: bit 7 selects the format, and that format's byte with this payload is
the byte itself. -/
theorem exec_decode_encodedByte (b : Byte) (s : State) :
    exec (decode (.encodedByte b)) s = .refused (.notAnOperation b) := by
  cases h : contBit b with
  | false => rw [decode_encodedByte_of_term h, exec_termByte, termByteOf_payload h]
  | true => rw [decode_encodedByte_of_cont h, exec_contByte, contByteOf_payload h]

/-- Settles O10: the byte presented by its two formats, and each format for every payload. -/
theorem encodedBytesAreNoOperations : Obligations.EncodedBytesAreNoOperations := fun s =>
  ⟨fun b => exec_decode_encodedByte b s, fun p => exec_termByte p s, fun p => exec_contByte p s⟩

end Machine
end Sys2Proof

/-! PROOFS of the family `20_memory.md`: what the operations leave unchanged in the regions. -/

namespace Sys2Proof.Machine

variable {i : Instr} {s t : State}

/-! ### The two decoders are one decode, up to the map applied to the value (R90, R94) -/

theorem exec_decodeUnsigned (s : State) : exec .decodeUnsigned s = decodeWith (fun u => u) s := rfl

theorem exec_decodeSigned (s : State) : exec .decodeSigned s = decodeWith unzz s := rfl

/-- Either decoder, when it answers a next state, has set the response fields to a decoded value and count and
done nothing else. -/
theorem exec_decoder_eq_setResponse (hi : i = .decodeUnsigned ∨ i = .decodeSigned)
    (h : exec i s = .next t) : ∃ v c, t = s.setResponse (Response.decoded v c) := by
  obtain rfl | rfl := hi
  · rw [exec_decodeUnsigned] at h
    obtain ⟨u, c, -, ht⟩ := decodeWith_cases h
    exact ⟨u, c, ht⟩
  · rw [exec_decodeSigned] at h
    obtain ⟨u, c, -, ht⟩ := decodeWith_cases h
    exact ⟨unzz u, c, ht⟩

/-- Settles O42: the next state is the old one with another response, and setting the response touches neither
region, nor the outcome, nor the pending list. -/
theorem decodersDoNotWrite : Obligations.DecodersDoNotWrite := by
  intro i s t hi h
  obtain ⟨v, c, rfl⟩ := exec_decoder_eq_setResponse hi h
  simp

end Sys2Proof.Machine

/-! PROOFS of the family `30_encoding.md`: the two formats of a byte, the reserved codes, and the value a form
denotes. -/

namespace Sys2Proof

/-! ### The two formats of a byte, as numbers (R49) -/

/-- A continuation byte, read as a number, is its payload with bit 7 set. -/
theorem payload_toNat_of_cont {b : Byte} (h : contBit b = true) :
    (payload b).toNat + 0x80 = b.toNat := by
  revert b; decide

@[simp] theorem termByteOf_toNat (p : Group) : (termByteOf p).toNat = p.toNat := by
  rw [← payload_toNat_of_term (contBit_termByteOf p), payload_termByteOf]

@[simp] theorem contByteOf_toNat (p : Group) : (contByteOf p).toNat = 0x80 + p.toNat := by
  rw [← payload_toNat_of_cont (contBit_contByteOf p), payload_contByteOf, Nat.add_comm]

/-- Settles O11: bit 7 says which of the two formats a byte has, and the payload, below 0x80, is the rest of its
value. -/
theorem everyByteIsTermOrCont : Obligations.EveryByteIsTermOrCont := by
  refine ⟨fun b => ?_, fun p => ⟨termByteOf_toNat p, contByteOf_toNat p⟩⟩
  cases h : contBit b with
  | false =>
    have hval := payload_toNat_of_term h
    have hp : (payload b).toNat < 0x80 := (payload b).isLt
    exact .inl ⟨by omega, rfl, hval, decode_encodedByte_of_term h⟩
  | true =>
    have hval := payload_toNat_of_cont h
    exact .inr ⟨by omega, rfl, hval, decode_encodedByte_of_cont h⟩

namespace Machine

/-! ### The reserved codes (R62) -/

@[simp] theorem decode_request_six (x : Word) : decode (.request 6 x) = .reservedOp6 := rfl

@[simp] theorem decode_request_seven (x : Word) : decode (.request 7 x) = .reservedOp7 := rfl

@[simp] theorem exec_reservedOp6 (s : State) :
    exec .reservedOp6 s = .refused (.reservedOp 6) := rfl

@[simp] theorem exec_reservedOp7 (s : State) :
    exec .reservedOp7 s = .refused (.reservedOp 7) := rfl

/-- Settles O9: each reserved code decodes to its reserved instruction, which is refused in every state. -/
theorem reservedCodesAreRefused : Obligations.ReservedCodesAreRefused := by
  intro x s
  rw [decode_request_six, decode_request_seven]
  exact ⟨exec_reservedOp6 s, exec_reservedOp7 s, exec_reservedOp6 s, exec_reservedOp7 s⟩

/-! ### The value a form denotes (R51) -/

/-- The payload, as a number, of the byte `j` places before the last; 0 where there is no such byte. -/
def payloadFromEnd (e : List Byte) (j : Nat) : Nat :=
  (e[e.length - 1 - j]?.map fun b => (payload b).toNat).getD 0

/-- The byte farthest from the end is the first. -/
theorem payloadFromEnd_cons_length (b : Byte) (cs : List Byte) :
    payloadFromEnd (b :: cs) cs.length = (payload b).toNat := by
  simp [payloadFromEnd]

/-- A byte put in front moves no other byte away from the end. -/
theorem payloadFromEnd_cons_of_lt (b : Byte) {cs : List Byte} {j : Nat} (h : j < cs.length) :
    payloadFromEnd (b :: cs) j = payloadFromEnd cs j := by
  have hidx : (b :: cs).length - 1 - j = cs.length - 1 - j + 1 := by
    simp only [List.length_cons]; omega
  simp only [payloadFromEnd, hidx, List.getElem?_cons_succ]

/-- The sum formula of R51, for every sequence of bytes: the byte in front adds the summand of highest weight. -/
theorem formVal_eq_sum (e : List Byte) :
    formVal e = ((List.range e.length).map fun j => payloadFromEnd e j * 2 ^ (7 * j)).sum := by
  induction e with
  | nil => rfl
  | cons b cs ih =>
    have hlow : ((List.range cs.length).map fun j => payloadFromEnd (b :: cs) j * 2 ^ (7 * j)) =
        (List.range cs.length).map fun j => payloadFromEnd cs j * 2 ^ (7 * j) :=
      List.map_congr_left fun j hj => by rw [payloadFromEnd_cons_of_lt b (List.mem_range.1 hj)]
    rw [List.length_cons, List.sum_range_succ, hlow, payloadFromEnd_cons_length, ← ih,
      Nat.add_comm]
    rfl

/-- Nine groups hold 63 bits. -/
theorem formVal_lt_of_length_le_nine {e : List Byte} (h : e.length ≤ 9) : formVal e < 2 ^ 63 :=
  lt_of_lt_of_le (formVal_lt e) (Nat.pow_le_pow_right (by omega) (by omega))

/-- With nine bytes after it, the first byte has weight `2^63`, so only the payloads 0 and 1 fit in 64 bits
(R52). -/
theorem formVal_cons_lt_iff {b : Byte} {cs : List Byte} (h : cs.length = 9) :
    formVal (b :: cs) < 2 ^ 64 ↔ (payload b).toNat ≤ 1 := by
  have hlow := formVal_lt_of_length_le_nine h.le
  have hval : formVal (b :: cs) = (payload b).toNat * 2 ^ 63 + formVal cs := by
    simp [formVal, h, Config.groupW]
  omega

/-- Settles O19: the sum formula and the bound of nine groups hold for all bytes; with ten, the first byte
decides. -/
theorem formValueIsTheSumOfGroups : Obligations.FormValueIsTheSumOfGroups := by
  intro e he
  obtain ⟨b, cs, rfl, -, -, -⟩ := isForm_cons he
  refine ⟨formVal_eq_sum (b :: cs), formVal_lt_of_length_le_nine, fun hten => ?_⟩
  rw [formVal_cons_lt_iff (Nat.succ.inj hten)]
  simp

end Machine
end Sys2Proof

/-! PROOFS of the family `40_unsigned_encoder.md`: the bit length of a value, the groups of an encoding, and the
append that writes it. -/

namespace Sys2Proof

/-! ### The two formats of a byte, as patterns (R49) -/

theorem termByteOf_eq_ofNat (p : Group) : termByteOf p = BitVec.ofNat 8 p.toNat := by
  rw [← termByteOf_toNat, BitVec.ofNat_toNat, BitVec.setWidth_eq]

/-- The payload has no bit 7, so setting that bit adds 0x80. -/
theorem contByteOf_eq_ofNat (p : Group) : contByteOf p = BitVec.ofNat 8 (0x80 ||| p.toNat) := by
  have hor : 0x80 ||| p.toNat = 0x80 + p.toNat := (Nat.two_pow_add_eq_or_of_lt p.isLt 1).symm
  rw [hor, ← contByteOf_toNat, BitVec.ofNat_toNat, BitVec.setWidth_eq]

namespace Machine

/-! ### The bit length (R65) -/

/-- Between two successive powers of two the bit length is the exponent of the upper one. -/
theorem bitlength_eq_of_bounds {x : Word} {i : Nat} (hlo : 2 ^ i ≤ x.toNat)
    (hhi : x.toNat < 2 ^ (i + 1)) : bitlength x = i + 1 := by
  have h0 : x.toNat ≠ 0 := (Nat.lt_of_lt_of_le (Nat.two_pow_pos i) hlo).ne'
  rw [bitlength, (Nat.log2_eq_iff h0).2 ⟨hlo, hhi⟩]

/-- The highest set bit `i` puts the value between `2^i` and `2^(i+1)`. -/
theorem bitlength_eq_of_highest_bit {x : Word} {i : Nat} (hi : x.getLsbD i = true)
    (habove : ∀ j, i < j → x.getLsbD j = false) : bitlength x = i + 1 :=
  bitlength_eq_of_bounds (Nat.ge_two_pow_of_testBit hi)
    (Nat.lt_pow_two_of_testBit _ fun j hj => habove j hj)

/-- Settles O13: the highest set bit fixes the bit length, which bounds the value on both sides. -/
theorem bitlengthIsHighestSetBit : Obligations.BitlengthIsHighestSetBit :=
  ⟨by decide, fun _ _ => bitlength_eq_of_highest_bit,
    fun x => ⟨bitlength_pos x, bitlength_le x⟩,
    fun x hx => ⟨bitlength_le_toNat (Nat.ne_of_gt hx), toNat_lt_bitlength x⟩,
    by decide, by decide, by decide, by decide, by decide⟩

/-! ### The group count and the length (R66) -/

/-- Bit 63, the highest of a value, says whether the value reaches `2^63`. -/
theorem getLsbD_63_iff (x : Word) : x.getLsbD 63 = true ↔ 2 ^ 63 ≤ x.toNat := by
  rw [← BitVec.msb_eq_getLsbD_last x, BitVec.msb_eq_decide, decide_eq_true_iff]

/-- One byte, the fewest there are, is enough exactly for a value of one group. -/
theorem length_enc_eq_one_iff (x : Word) : (enc x).length = 1 ↔ x.toNat ≤ 127 := by
  have hone : (enc x).length ≤ 1 ↔ x.toNat < 128 := length_enc_le_iff x le_rfl
  have hlen := length_enc x
  omega

/-- Ten bytes, the most there are, are written exactly when nine groups are too few. -/
theorem length_enc_eq_ten_iff (x : Word) : (enc x).length = 10 ↔ 2 ^ 63 ≤ x.toNat := by
  have hnine : (enc x).length ≤ 9 ↔ x.toNat < 2 ^ 63 := length_enc_le_iff x (by omega)
  have hmax := length_enc_le x
  omega

/-- Settles O14: the length is one more than the group count, so the count 9 is the length 10, of the values with
bit 63 set. -/
theorem groupCountGivesTheLength : Obligations.GroupCountGivesTheLength := by
  intro x
  have hnine : groupCount x = 9 ↔ x.getLsbD 63 = true := by
    rw [getLsbD_63_iff, ← length_enc_eq_ten_iff, length_enc, Nat.succ_inj]
  exact ⟨rfl, groupCount_le x, length_enc x, length_enc_eq_one_iff x, length_enc_eq_ten_iff x, hnine⟩

/-! ### The groups (R67) -/

/-- Bit `i` of group `k` is bit `7k+i` of the value; a word has no bit above 63, and `getLsbD` reads 0 there. -/
theorem group_getLsbD (x : Word) (k : Nat) {i : Nat} (hi : i < 7) :
    (group x k).getLsbD i = x.getLsbD (7 * k + i) := by
  simp [group, Config.groupW, hi]

theorem group_toNat_eq_and (x : Word) (k : Nat) :
    (group x k).toNat = (x.toNat >>> (7 * k)) &&& 0x7f := by
  rw [group_toNat, Nat.shiftRight_eq_div_pow]
  exact (Nat.and_two_pow_sub_one_eq_mod _ 7).symm

/-- Of the seven bits of group 9, 63 to 69, only bit 63 exists. -/
theorem group_nine_toNat (x : Word) : (group x 9).toNat = if x.getLsbD 63 then 1 else 0 := by
  have hx := x.isLt
  simp only [group_toNat, getLsbD_63_iff]
  split <;> omega

/-- Settles O16: a group as a number, bit by bit, and the highest one. -/
theorem groupsAreSevenBits : Obligations.GroupsAreSevenBits := fun x k _ =>
  ⟨group_toNat_eq_and x k, fun _ => group_getLsbD x k, group_nine_toNat x⟩

/-! ### The bytes of an encoding (R68) -/

/-- The continuation bytes carry the groups in falling order. -/
theorem contGroups_getElem? (x : Word) {k j : Nat} (hj : j < k) :
    (contGroups x k)[j]? = some (contByteOf (group x (k - 1 - j))) := by
  induction k generalizing j with
  | zero => omega
  | succ k ih =>
    cases j with
    | zero => simp [contGroups]
    | succ j =>
      rw [contGroups, List.getElem?_cons_succ, ih (by omega)]
      congr 3; omega

theorem enc_getElem?_zero (x : Word) : (enc x)[0]? = some (termByteOf (group x (groupCount x))) := rfl

theorem enc_getElem?_succ (x : Word) {j : Nat} (hj : j < groupCount x) :
    (enc x)[j + 1]? = some (contByteOf (group x (groupCount x - (j + 1)))) := by
  rw [enc, List.getElem?_cons_succ, contGroups_getElem? x hj, Nat.sub_sub, Nat.add_comm 1 j]

/-- Settles O17: the first byte is the terminator of the highest group, each later one the continuation byte of
the next lower group. -/
theorem encLaysOutTheGroups : Obligations.EncLaysOutTheGroups := by
  refine ⟨fun x => ⟨length_enc x, ?_, fun j hpos hj => ?_⟩,
    by decide, by decide, by decide, by decide, by decide, by decide, by decide⟩
  · rw [enc_getElem?_zero, termByteOf_eq_ofNat]
  · obtain ⟨i, rfl⟩ := Nat.exists_eq_add_one.2 hpos
    rw [enc_getElem?_succ x hj, contByteOf_eq_ofNat]

/-! ### Appending an encoding (R70) -/

variable {m : Memory} {s : State}

/-- The bytes appended are read from the old tail on. -/
theorem Memory.read_appendAll_added (h : m.wf) (bs : List Byte) (j : Nat) :
    (m.appendAll bs).read (m.len + j) = bs[j]? := by
  rw [Memory.read_eq (Memory.wf_appendAll h bs), Memory.bytes_appendAll, ← Memory.len_bytes,
    List.getElem?_append_right (Nat.le_add_right _ _), Nat.add_sub_cancel_left]

/-- An append changes the answer of a read only at the addresses it adds. -/
theorem Memory.read_appendAll_frame (h : m.wf) (bs : List Byte) {a : Nat}
    (ha : a < m.len ∨ m.len + bs.length ≤ a) : (m.appendAll bs).read a = m.read a := by
  obtain hbefore | hbeyond := ha
  · exact Memory.read_appendAll h bs hbefore
  · have hnew : (m.appendAll bs).read a = none :=
      Memory.read_outside (Memory.wf_appendAll h bs) (by simpa using hbeyond)
    rw [hnew, Memory.read_outside h (by omega)]

/-- What an append encode of the pattern `u` does, whichever encoder asks for it: it completes, with `enc u` at
the tail of `B` and nothing else changed. -/
theorem appendEncoding_completes (u : Word) (h : s.B.wf) :
    ∃ t, appendEncoding u s = .next t ∧
      t.B.bytes = s.B.bytes ++ enc u ∧ t.B.wf ∧ t.B.len = s.B.len + groupCount u + 1 ∧
      (∀ j, j < (enc u).length → t.B.read (s.B.len + j) = (enc u)[j]?) ∧
      (∀ a, a < s.B.len ∨ s.B.len + (enc u).length ≤ a → t.B.read a = s.B.read a) ∧
      t.D = s.D ∧ t.outcome = s.outcome ∧ t.pending = s.pending ∧
      t.response = some Response.appended :=
  ⟨_, appendEncoding_eq u s, Memory.bytes_appendAll (enc u), Memory.wf_appendAll h (enc u),
    by simp [Nat.add_assoc], fun j _ => Memory.read_appendAll_added h (enc u) j,
    fun _ => Memory.read_appendAll_frame h (enc u), rfl, rfl, rfl, rfl⟩

theorem exec_encodeUnsignedAppend (x : Word) (s : State) :
    exec (.encodeUnsignedAppend x) s = appendEncoding x s := rfl

/-- Settles O26: the unsigned append encodes its operand as it is. -/
theorem unsignedAppendCompletes : Obligations.UnsignedAppendCompletes := by
  refine ⟨fun s x h => ?_, by decide, by decide, by decide⟩
  rw [exec_encodeUnsignedAppend]
  exact appendEncoding_completes x h

end Machine
end Sys2Proof

/-! PROOFS of the family `41_signed_encoder.md`: the zig-zag map and its inverse as numbers, and the append of a
signed value. -/

namespace Sys2Proof.Machine

variable {x u : Word}

/-! ### The zig-zag map, by the sign of its operand (R74) -/

theorem zz_of_msb_false (h : x.msb = false) : zz x = x <<< 1 := by
  simp [zz, h]

theorem zz_of_msb_true (h : x.msb = true) : zz x = ~~~(x <<< 1) := by
  rw [zz, if_pos h, BitVec.xor_allOnes]

/-- A pattern below `2^63` loses no bit by the shift. -/
theorem zz_toNat_of_msb_false (h : x.msb = false) : (zz x).toNat = 2 * x.toNat := by
  have hlt := BitVec.toNat_lt_of_msb_false h
  rw [zz_of_msb_false h, BitVec.toNat_shiftLeft, Nat.shiftLeft_eq]
  omega

/-- A pattern from `2^63` on loses its sign bit by the shift, and the complement counts down from `2^64 - 1`. -/
theorem zz_toNat_of_msb_true (h : x.msb = true) : (zz x).toNat + 2 * x.toNat = 2 ^ 65 - 1 := by
  have hge := BitVec.le_toNat_of_msb_true h
  have hlt := x.isLt
  rw [zz_of_msb_true h, BitVec.toNat_not, BitVec.toNat_shiftLeft, Nat.shiftLeft_eq]
  omega

/-! ### The inverse map, by the low bit of its operand (R91) -/

theorem getLsbD_zero_iff_odd (u : Word) : u.getLsbD 0 = true ↔ u.toNat % 2 = 1 := by
  simp [BitVec.getLsbD]

theorem unzz_toNat_of_even (h : u.toNat % 2 = 0) : (unzz u).toNat = u.toNat / 2 := by
  have hbit : ¬ u.getLsbD 0 = true := by rw [getLsbD_zero_iff_odd]; omega
  rw [unzz, if_neg hbit, BitVec.toNat_ushiftRight, Nat.shiftRight_one]

theorem unzz_toNat_of_odd (h : u.toNat % 2 = 1) : (unzz u).toNat + u.toNat / 2 = 2 ^ 64 - 1 := by
  have hlt := u.isLt
  rw [unzz, if_pos ((getLsbD_zero_iff_odd u).2 h), BitVec.toNat_not, BitVec.toNat_ushiftRight,
    Nat.shiftRight_one]
  omega

/-! ### The two maps undo each other -/

/-- A pattern with the sign bit clear has an even image, one with it set an odd one. -/
theorem unzz_zz (x : Word) : unzz (zz x) = x := by
  apply BitVec.eq_of_toNat_eq
  cases h : x.msb with
  | false =>
    have hz := zz_toNat_of_msb_false h
    rw [unzz_toNat_of_even (by omega)]
    omega
  | true =>
    have hz := zz_toNat_of_msb_true h
    have hu := unzz_toNat_of_odd (u := zz x) (by omega)
    omega

/-- An even number is undone to a pattern with the sign bit clear, an odd one to one with it set. -/
theorem zz_unzz (u : Word) : zz (unzz u) = u := by
  have hlt := u.isLt
  apply BitVec.eq_of_toNat_eq
  obtain h | h := Nat.mod_two_eq_zero_or_one u.toNat
  · have hu := unzz_toNat_of_even h
    rw [zz_toNat_of_msb_false (BitVec.msb_eq_false_iff_two_mul_lt.2 (by omega))]
    omega
  · have hu := unzz_toNat_of_odd h
    have hz := zz_toNat_of_msb_true (x := unzz u) (BitVec.msb_eq_true_iff_two_mul_ge.2 (by omega))
    omega

theorem zz_bijective : Function.Bijective zz :=
  ⟨Function.LeftInverse.injective unzz_zz, Function.RightInverse.surjective zz_unzz⟩

/-! ### Patterns and signed values (R10) -/

theorem signed64_bits64 {v : Int} (hlo : -2 ^ 63 ≤ v) (hhi : v ≤ 2 ^ 63 - 1) :
    signed64 (bits64 v) = v :=
  BitVec.toInt_ofInt_eq_self (by decide) hlo (Int.lt_of_le_sub_one hhi)

theorem bits64_signed64 (x : Word) : bits64 (signed64 x) = x := BitVec.ofInt_toInt

/-- The zig-zag map doubles a value that is not negative. -/
theorem zz_toNat_of_nonneg (h : 0 ≤ signed64 x) : ((zz x).toNat : Int) = 2 * signed64 x := by
  have hmsb : x.msb = false := by
    rw [BitVec.msb_eq_toInt]
    exact decide_eq_false (not_lt.2 h)
  rw [signed64, BitVec.toInt_eq_toNat_of_msb hmsb, zz_toNat_of_msb_false hmsb]
  omega

/-- The zig-zag map puts the negative values, from -1 down, on the odd numbers. -/
theorem zz_toNat_of_neg (h : signed64 x < 0) : ((zz x).toNat : Int) = -2 * signed64 x - 1 := by
  have hmsb : x.msb = true := by
    rw [BitVec.msb_eq_toInt]
    exact decide_eq_true h
  have hz := zz_toNat_of_msb_true hmsb
  rw [signed64, BitVec.toInt_eq_msb_cond, if_pos hmsb]
  omega

/-- Settles O22: the map by the sign of the value, and the two inverses; the mask is the same pattern written
out. -/
theorem zigzagAsIntegers : Obligations.ZigzagAsIntegers := by
  refine ⟨fun x => ?_, fun v hlo hhi => ?_, fun v hlo hhi => ?_, zz_bijective, unzz_zz,
    fun v => signed64_bits64, bits64_signed64⟩
  · rw [← BitVec.msb_eq_getLsbD_last x]
    rfl
  · have hv : signed64 (bits64 v) = v := signed64_bits64 (by omega) hhi
    rw [zz_toNat_of_nonneg (by omega), hv]
  · have hv : signed64 (bits64 v) = v := signed64_bits64 hlo (by omega)
    rw [zz_toNat_of_neg (by omega), hv]

/-! ### Appending a signed value (R77) -/

theorem exec_encodeSignedAppend (x : Word) (s : State) :
    exec (.encodeSignedAppend x) s = appendEncoding (zz x) s := rfl

/-- Settles O27: the signed append encodes the zig-zag image of its operand. -/
theorem signedAppendCompletes : Obligations.SignedAppendCompletes := by
  refine ⟨fun s x h => ?_, by decide, by decide, by decide, by decide, by decide⟩
  rw [exec_encodeSignedAppend]
  exact appendEncoding_completes (zz x) h

end Sys2Proof.Machine

/-! PROOFS of the family `42_unsigned_decoder.md`: what the unsigned decoder answers, by what stands at the tail of
the buffer. -/

namespace Sys2Proof.Machine

variable {s : State} {v : Word} {c : Int} {b : Byte} {cs : List Byte}

/-! ### Forms of ten bytes (R52) -/

/-- R52, for a sequence given by its first byte: only with nine bytes after it must that byte's payload be small. -/
theorem formFits_cons_iff : formFits (b :: cs) = true ↔ (cs.length = 9 → (payload b).toNat ≤ 1) := by
  simp [formFits, Config.maxLen64, imp_iff_not_or]

/-- The first of ten bytes has weight `2^63`, so a first byte of 0 or 1 is bit 63 of the value (R52). -/
theorem formVal_getLsbD_63_iff (hl : cs.length = 9) (hp : (payload b).toNat ≤ 1) :
    (BitVec.ofNat 64 (formVal (b :: cs))).getLsbD 63 = true ↔ (payload b).toNat = 1 := by
  have hlow : formVal cs < 2 ^ 63 := formVal_lt_of_length_le_nine hl.le
  have hval : formVal (b :: cs) = (payload b).toNat * 2 ^ 63 + formVal cs := by
    simp [formVal, hl, Config.groupW]
  rw [getLsbD_63_iff, BitVec.toNat_ofNat, Nat.mod_eq_of_lt ((formVal_cons_lt_iff hl).2 hp)]
  omega

/-! ### The answers of the scan (R83, R84, R86) -/

/-- A terminator that does not overflow ends the scan with the value of the form it starts (R83). -/
theorem scanTail_term_fits (before : List Byte) (hb : contBit b = false)
    (hc : ∀ c ∈ cs, contBit c = true) (hl : cs.length ≤ 9) (hfit : cs.length = 9 → b.toNat ≤ 1) :
    scanTail 10 0 (before ++ b :: cs).reverse =
      (BitVec.ofNat 64 (formVal (b :: cs)), ((b :: cs).length : Int)) := by
  have hno : ¬ (cs.length = 9 ∧ 1 < b.toNat) := fun ⟨hnine, hbig⟩ => (hfit hnine).not_gt hbig
  rw [scanTail_form before cs b hb hc hl, if_neg hno, List.length_cons, Nat.cast_succ]

/-- A terminator from 2 on at the tenth position is an overflow (R86). -/
theorem scanTail_term_overflow (before : List Byte) (hb : contBit b = false)
    (hc : ∀ c ∈ cs, contBit c = true) (hl : cs.length = 9) (hbig : 2 ≤ b.toNat) :
    scanTail 10 0 (before ++ b :: cs).reverse = (0, -10) := by
  rw [scanTail_form before cs b hb hc hl.le, if_pos ⟨hl, hbig⟩]

/-- The count 0 is the verdict of one case of the scan only, the one that meets the head within ten bytes; the
other counts are -11, -10 and the length of a form (R84, R82). -/
theorem scanTail_eq_zero_count_iff (l : List Byte) :
    scanTail 10 0 l.reverse = (v, 0) ↔ v = 0 ∧ l.length ≤ 10 ∧ ∀ b ∈ l, contBit b = true := by
  constructor
  · intro h
    obtain ⟨hc, hl, hscan⟩ | ⟨_, _, _, -, -, -, hscan⟩ | ⟨_, _, _, -, -, -, -, -, hscan⟩ |
      ⟨_, _, cs, -, -, -, -, -, hscan⟩ := scanTail_cases l <;> rw [hscan, Prod.mk.injEq] at h
    · exact ⟨h.1.symm, hl, hc⟩
    · exact absurd h.2 (by decide)
    · exact absurd h.2 (by decide)
    · exact absurd h.2 (by omega)
  · rintro ⟨rfl, hl, hc⟩
    exact scanTail_all_conts l.reverse (by simpa using hc) (by simpa using hl) 0

/-! ### The operation (R90) -/

/-- The unsigned decoder answers exactly what the scan of the bytes answers, and changes the response only. -/
theorem exec_decodeUnsigned_iff (h : s.B.wf) :
    exec .decodeUnsigned s = .next { s with response := some (Response.decoded v c) } ↔
      scanTail 10 0 s.B.bytes.reverse = (v, c) := by
  rw [exec_decodeUnsigned, decodeWith_eq _ h]
  simp [State.setResponse, Response.decoded, Prod.ext_iff]

/-- Settles O33: a form is a terminator and continuation bytes, and that it fits keeps the terminator from
overflowing. -/
theorem unsignedDecodeSucceeds : Obligations.UnsignedDecodeSucceeds := by
  rintro s before e hwf hbytes ⟨hform, hfits⟩
  obtain ⟨b, cs, rfl, hb, hc, hl⟩ := isForm_cons hform
  have hfit := formFits_cons_iff.1 hfits
  rw [payload_toNat_of_term hb] at hfit
  rw [exec_decodeUnsigned_iff hwf, hbytes]
  exact scanTail_term_fits before hb hc hl hfit

/-- Settles O34: the scan answers the count 0 for exactly these bytes. -/
theorem tooSmallExactly : Obligations.TooSmallExactly := by
  intro s v hwf
  rw [exec_decodeUnsigned_iff hwf, scanTail_eq_zero_count_iff, Memory.len_bytes]

/-- Settles O36: the terminator overflows from 2 on; 0 and 1 fit, and are bit 63 of the form's value. -/
theorem overflowAtTheTenthByte : Obligations.OverflowAtTheTenthByte := by
  intro s before cs b hwf hbytes hl hc hb
  refine ⟨fun hbig => ?_, fun hsmall => ⟨BitVec.ofNat 64 (formVal (b :: cs)), ?_, ?_⟩⟩
  · rw [exec_decodeUnsigned_iff hwf, hbytes]
    exact scanTail_term_overflow before hb hc hl hbig
  · rw [exec_decodeUnsigned_iff hwf, hbytes, scanTail_term_fits before hb hc hl.le fun _ => hsmall,
      List.length_cons, hl]
    rfl
  · rw [← payload_toNat_of_term hb] at hsmall ⊢
    exact formVal_getLsbD_63_iff hl hsmall

end Sys2Proof.Machine

/-! PROOFS of the family `43_signed_decoder.md`: the inverse of the zig-zag map as an integer, and the signed
decoder by what the unsigned one answers. -/

namespace Sys2Proof.Machine

variable {s : State} {u v : Word} {c : Int}

/-! ### The inverse map as an integer, by the low bit of its operand (R91) -/

/-- Half of an even number is below `2^63`, so the image is not negative. -/
theorem signed64_unzz_of_even (h : u.toNat % 2 = 0) : signed64 (unzz u) = (u.toNat : Int) / 2 := by
  have hlt := u.isLt
  have hu := unzz_toNat_of_even h
  have hmsb : (unzz u).msb = false := BitVec.msb_eq_false_iff_two_mul_lt.2 (by omega)
  rw [signed64, BitVec.toInt_eq_toNat_of_msb hmsb, hu, Int.natCast_ediv]
  rfl

/-- The complement of a pattern below `2^63` has the sign bit set, so the image is negative. -/
theorem signed64_unzz_of_odd (h : u.toNat % 2 = 1) :
    signed64 (unzz u) = -(((u.toNat : Int) + 1) / 2) := by
  have hlt := u.isLt
  have hu := unzz_toNat_of_odd h
  have hmsb : (unzz u).msb = true := BitVec.msb_eq_true_iff_two_mul_ge.2 (by omega)
  rw [signed64, BitVec.toInt_eq_msb_cond, if_pos hmsb]
  omega

/-- Settles O24: the pattern is the definition of the map, the integers follow by the parity of the operand. -/
theorem unzigzagAsIntegers : Obligations.UnzigzagAsIntegers := fun _ =>
  ⟨rfl, signed64_unzz_of_even, signed64_unzz_of_odd⟩

/-! ### The signed decoder, by the unsigned one (R94) -/

/-- Every answer of the scan has one of the 13 counts of R88, and no value unless it is a success. -/
theorem scanTail_isDecodeCount (l : List Byte) (h : scanTail 10 0 l.reverse = (v, c)) :
    IsDecodeCount c ∧ (c ≤ 0 → v = 0) := by
  obtain ⟨-, -, hscan⟩ | ⟨_, _, _, -, -, -, hscan⟩ | ⟨_, _, _, -, -, -, -, -, hscan⟩ |
    ⟨_, _, cs, -, -, -, hlen, -, hscan⟩ := scanTail_cases l <;>
    obtain ⟨rfl, rfl⟩ := Prod.mk.inj (hscan.symm.trans h)
  · exact ⟨.inr (.inr (.inl rfl)), fun _ => rfl⟩
  · exact ⟨.inl rfl, fun _ => rfl⟩
  · exact ⟨.inr (.inl rfl), fun _ => rfl⟩
  · exact ⟨.inr (.inr (.inr (by omega))), by omega⟩

/-- The signed decoder answers the inverse map of the value the scan answers, with the scan's count, and changes
the response only. -/
theorem exec_decodeSigned_of_scanTail (hwf : s.B.wf) (h : scanTail 10 0 s.B.bytes.reverse = (u, c)) :
    exec .decodeSigned s = .next { s with response := some (Response.decoded (unzz u) c) } := by
  rw [exec_decodeSigned, decodeWith_eq _ hwf, h]
  rfl

theorem unzz_zero : unzz 0 = 0 := by decide

/-- Settles O43: both decoders answer from one scan of the bytes, and the inverse map keeps the value 0 of a
failure. -/
theorem signedDecodeFollowsUnsigned : Obligations.SignedDecodeFollowsUnsigned := by
  intro s hwf
  obtain ⟨u, c, hscan⟩ : ∃ u c, scanTail 10 0 s.B.bytes.reverse = (u, c) := ⟨_, _, rfl⟩
  obtain ⟨hcount, hzero⟩ := scanTail_isDecodeCount s.B.bytes hscan
  refine ⟨u, c, (exec_decodeUnsigned_iff hwf).2 hscan, exec_decodeSigned_of_scanTail hwf hscan, hcount,
    fun hc => ?_⟩
  rw [hzero hc, unzz_zero]

end Sys2Proof.Machine

/-! PROOFS of the family `other`, encodings: an encoding is a form that denotes its value, the canonical forms,
and the lengths by value. -/

namespace Sys2Proof.Machine

variable {x : Word} {b : Byte} {cs e : List Byte}

/-! ### Forms given by their first byte (R50, R52) -/

/-- A terminator, at most nine continuation bytes after it, and a small payload where there are nine. -/
theorem isValueForm_of_cons (hb : contBit b = false) (hc : ∀ c ∈ cs, contBit c = true)
    (hl : cs.length ≤ 9) (hfit : cs.length = 9 → (payload b).toNat ≤ 1) : IsValueForm (b :: cs) := by
  refine ⟨⟨?_, ?_, ?_⟩, formFits_cons_iff.2 hfit⟩
  · simpa [formLengthOk, Config.minLen, Config.maxLen64] using Nat.lt_succ_of_le hl
  · simpa [formStartsWithTerminator] using hb
  · simpa [formContinues] using hc

/-- A form that fits denotes a 64-bit value (R52). -/
theorem formVal_lt_of_isValueForm (h : IsValueForm e) : formVal e < 2 ^ 64 := by
  obtain ⟨hform, hfits⟩ := h
  obtain ⟨b, cs, rfl, -, -, hl⟩ := isForm_cons hform
  obtain hnine | hless := hl.eq_or_lt
  · exact (formVal_cons_lt_iff hnine).2 (formFits_cons_iff.1 hfits hnine)
  · exact lt_trans (formVal_lt_of_length_le_nine hless) (by decide)

/-! ### The terminator of an encoding (R69) -/

/-- The highest group is what is left of the value above the lower groups. -/
theorem group_groupCount_toNat (x : Word) :
    (group x (groupCount x)).toNat = x.toNat / 2 ^ (7 * groupCount x) := by
  have hlt : x.toNat < 2 ^ (7 * groupCount x) * 2 ^ 7 := by
    rw [← Nat.pow_add]
    exact toNat_lt_groups x
  rw [group_toNat]
  exact Nat.mod_eq_of_lt (Nat.div_lt_of_lt_mul hlt)

/-- The highest group is not 0 unless it is the only one. -/
theorem group_groupCount_pos (h : groupCount x ≠ 0) : 0 < (group x (groupCount x)).toNat := by
  rw [group_groupCount_toNat]
  exact Nat.div_pos (groups_le_toNat h) (Nat.two_pow_pos _)

/-- The tenth group is bit 63, which is set in a value of ten groups. -/
theorem group_groupCount_of_nine (h : groupCount x = 9) : (group x (groupCount x)).toNat = 1 := by
  have hpos := group_groupCount_pos (x := x) (by omega)
  have hbit := group_nine_toNat x
  rw [h] at hpos ⊢
  split at hbit <;> omega

/-- An encoding is a form that fits 64 bits (R69, items 1 and 5). -/
theorem enc_isValueForm (x : Word) : IsValueForm (enc x) := by
  refine isValueForm_of_cons (contBit_termByteOf _) (fun c => contBit_contGroups) ?_ fun hnine => ?_
  · simpa using groupCount_le x
  · rw [length_contGroups] at hnine
    rw [payload_termByteOf, group_groupCount_of_nine hnine]

/-- An encoding denotes its value (R69, item 2): the highest group is the quotient, the lower ones the
remainder. -/
theorem formVal_enc (x : Word) : formVal (enc x) = x.toNat := by
  rw [enc, formVal, payload_termByteOf, formVal_contGroups, length_contGroups, group_groupCount_toNat]
  exact Nat.div_add_mod' _ _

theorem enc_injective : Function.Injective enc := fun x y h =>
  BitVec.eq_of_toNat_eq (by rw [← formVal_enc x, ← formVal_enc y, h])

/-- The first byte of an encoding of two bytes or more is not 0 (R69, item 3). -/
theorem enc_head_ne_zero (h : groupCount x ≠ 0) : (enc x)[0]? ≠ some 0 := by
  intro hzero
  have hpos := group_groupCount_pos h
  rw [enc_getElem?_zero, Option.some_inj] at hzero
  rw [← termByteOf_toNat, hzero] at hpos
  exact absurd hpos (by decide)

/-- The encoding of one group is that group's byte, which is the value (R69, item 4). -/
theorem enc_map_toNat_of_one_group (h : groupCount x = 0) : (enc x).map BitVec.toNat = [x.toNat] := by
  have hval := group_groupCount_toNat x
  simp only [h, Nat.mul_zero, Nat.pow_zero, Nat.div_one] at hval
  simp [enc, h, contGroups, hval]

/-- The first of ten bytes is 1 (R69, item 5). -/
theorem enc_head_of_ten (h : groupCount x = 9) : (enc x)[0]? = some 1 := by
  rw [enc_getElem?_zero, termByteOf_eq_ofNat, group_groupCount_of_nine h]
  rfl

/-- Settles O18: the items of R69 one by one. -/
theorem encodingsDenoteTheirValue : Obligations.EncodingsDenoteTheirValue :=
  ⟨fun x => ⟨enc_isValueForm x, formVal_enc x, fun h => enc_head_ne_zero (by omega),
    enc_map_toNat_of_one_group, enc_head_of_ten⟩, enc_injective⟩

/-! ### The shortest form of a value (R54) -/

/-- The first byte's payload is the quotient by its weight, what the later bytes denote the remainder. -/
theorem formVal_cons_inj {d : Byte} {ds : List Byte} (hl : cs.length = ds.length)
    (h : formVal (b :: cs) = formVal (d :: ds)) :
    (payload b).toNat = (payload d).toNat ∧ formVal cs = formVal ds := by
  have hcs := formVal_lt cs
  have hds := formVal_lt ds
  simp only [formVal, Config.groupW, hl] at h hcs
  have hdiv := congrArg (· / 2 ^ (7 * ds.length)) h
  have hmod := congrArg (· % 2 ^ (7 * ds.length)) h
  simp only [Nat.mul_comm _ (2 ^ (7 * ds.length)), Nat.mul_add_div (Nat.two_pow_pos _),
    Nat.div_eq_of_lt hcs, Nat.div_eq_of_lt hds, Nat.mul_add_mod, Nat.mod_eq_of_lt hcs,
    Nat.mod_eq_of_lt hds] at hdiv hmod
  exact ⟨hdiv, hmod⟩

/-- Bytes of one format are told apart by their payloads. -/
theorem eq_of_payload_toNat {d : Byte} (hbit : contBit b = contBit d)
    (h : (payload b).toNat = (payload d).toNat) : b = d := by
  have hp : payload b = payload d := BitVec.eq_of_toNat_eq h
  cases hd : contBit d with
  | false => rw [← termByteOf_payload (hbit.trans hd), hp, termByteOf_payload hd]
  | true => rw [← contByteOf_payload (hbit.trans hd), hp, contByteOf_payload hd]

/-- As many continuation bytes with the same value are the same bytes. -/
theorem conts_eq_of_formVal_eq {ds : List Byte} (hc : ∀ c ∈ cs, contBit c = true)
    (hd : ∀ d ∈ ds, contBit d = true) (hl : cs.length = ds.length) (h : formVal cs = formVal ds) :
    cs = ds := by
  induction cs generalizing ds with
  | nil => exact (List.length_eq_zero_iff.1 hl.symm).symm
  | cons b cs ih =>
    obtain ⟨d, ds, rfl⟩ := List.exists_cons_of_length_eq_add_one hl.symm
    rw [List.forall_mem_cons] at hc hd
    obtain ⟨hb, hrest⟩ := formVal_cons_inj (Nat.succ.inj hl) h
    rw [eq_of_payload_toNat (hc.1.trans hd.1.symm) hb, ih hc.2 hd.2 (Nat.succ.inj hl) hrest]

/-- A value has one form of each length at most. -/
theorem form_eq_of_formVal_eq {e' : List Byte} (he : IsForm e) (he' : IsForm e')
    (hl : e.length = e'.length) (h : formVal e = formVal e') : e = e' := by
  obtain ⟨b, cs, rfl, hb, hc, -⟩ := isForm_cons he
  obtain ⟨d, ds, rfl, hd, hcd, -⟩ := isForm_cons he'
  obtain ⟨hfirst, hrest⟩ := formVal_cons_inj (Nat.succ.inj hl) h
  rw [eq_of_payload_toNat (hb.trans hd.symm) hfirst, conts_eq_of_formVal_eq hc hcd (Nat.succ.inj hl) hrest]

/-- No form of a value is shorter than its encoding. -/
theorem length_enc_le_of_formVal (he : IsForm e) (h : formVal e = x.toNat) :
    (enc x).length ≤ e.length := by
  obtain ⟨b, cs, rfl, -⟩ := isForm_cons he
  rw [length_enc_le_iff x (by simp), ← h]
  exact formVal_lt _

/-- A form as long as the encoding of its value is that encoding. -/
theorem eq_enc_of_length_eq (he : IsForm e) (h : formVal e = x.toNat)
    (hl : e.length = (enc x).length) : e = enc x :=
  form_eq_of_formVal_eq he (enc_isValueForm x).1 hl (h.trans (formVal_enc x).symm)

/-- A form that fits, of one byte or with a first payload other than 0, is the encoding of what it denotes: that
payload keeps the value out of fewer groups. -/
theorem enc_formVal_eq (h : IsValueForm (b :: cs)) (htop : cs.length = 0 ∨ (payload b).toNat ≠ 0) :
    enc (BitVec.ofNat 64 (formVal (b :: cs))) = b :: cs := by
  have hval : formVal (b :: cs) = (BitVec.ofNat 64 (formVal (b :: cs))).toNat :=
    (Nat.mod_eq_of_lt (formVal_lt_of_isValueForm h)).symm
  generalize BitVec.ofNat 64 (formVal (b :: cs)) = x at hval ⊢
  have hle := length_enc_le_of_formVal h.1 hval
  refine (eq_enc_of_length_eq h.1 hval (le_antisymm ?_ hle)).symm
  obtain hone | hne := htop
  · rw [List.length_cons, hone, length_enc]
    omega
  · by_contra hshort
    have hfew : (enc x).length ≤ cs.length := by rw [List.length_cons] at hshort; omega
    have hlt := (length_enc_le_iff x (by rw [length_enc] at hfew; omega)).1 hfew
    have hge : 1 * 2 ^ (7 * cs.length) ≤ (payload b).toNat * 2 ^ (7 * cs.length) :=
      Nat.mul_le_mul_right _ (Nat.pos_of_ne_zero hne)
    simp only [formVal, Config.groupW] at hval
    omega

/-- Settles O20: an encoding has the terminator its length asks for, a form with such a terminator is the encoding
of what it denotes, and no other form of the value is as short. -/
theorem canonicalFormsAreTheEncodings : Obligations.CanonicalFormsAreTheEncodings := by
  refine ⟨fun b bs hform => ⟨?_, fun hcanon => ?_⟩, fun x e he hval =>
    ⟨length_enc_le_of_formVal he hval, eq_enc_of_length_eq he hval⟩⟩
  · rintro ⟨x, hx⟩
    obtain ⟨rfl, rfl⟩ := List.cons.inj hx
    have hmax := groupCount_le x
    have hpos := group_groupCount_pos (x := x)
    have hnine := group_groupCount_of_nine (x := x)
    rw [payload_termByteOf, length_contGroups]
    omega
  · obtain ⟨_, _, heq, hb, hc, hl⟩ := isForm_cons hform
    obtain ⟨rfl, rfl⟩ := List.cons.inj heq
    exact ⟨_, enc_formVal_eq (isValueForm_of_cons hb hc hl (by omega)) (by omega)⟩

/-! ### The length by value (R53) -/

/-- From two bytes on, a length is a range of values. -/
theorem length_enc_eq_iff (x : Word) {k : Nat} (hk : 2 ≤ k) :
    (enc x).length = k ↔ 2 ^ (7 * (k - 1)) ≤ x.toNat ∧ x.toNat < 2 ^ (7 * k) := by
  have hle := length_enc_le_iff x (k := k) (by omega)
  have hfewer := length_enc_le_iff x (k := k - 1) (by omega)
  omega

/-- The length by the bit length (R65, R66). -/
theorem length_enc_eq_bitlength (x : Word) : (enc x).length = (bitlength x - 1) / 7 + 1 := length_enc x

/-- Settles O15: by value from the range of each length, by bit length from the quotient. -/
theorem encodedLengthByValue : Obligations.EncodedLengthByValue := by
  intro x
  refine ⟨length_enc_eq_bitlength x, length_enc_eq_one_iff x, fun k hk _ => ?_, fun k hk _ => ?_⟩
  · have hpos := Nat.two_pow_pos (7 * k)
    rw [length_enc_eq_iff x hk]
    omega
  · have hpos := bitlength_pos x
    rw [length_enc_eq_bitlength]
    omega

/-! ### Signed values, by their zig-zag image (R74, R75) -/

/-- The image of a signed value, as a number. -/
theorem zz_bits64_toNat {v : Int} (hlo : -2 ^ 63 ≤ v) (hhi : v ≤ 2 ^ 63 - 1) :
    ((zz (bits64 v)).toNat : Int) = if 0 ≤ v then 2 * v else -2 * v - 1 := by
  have hv := signed64_bits64 hlo hhi
  split
  · rw [zz_toNat_of_nonneg (by omega), hv]
  · rw [zz_toNat_of_neg (by omega), hv]

/-- Settles O21: sixteen bits fit in three groups and thirty-two in five, and the zig-zag image of a signed value
has as many bits as the value. -/
theorem lengthConstantsBoundTheEncoding : Obligations.LengthConstantsBoundTheEncoding := by
  have hthree (x : Word) : (enc x).length ≤ 3 ↔ x.toNat < 2 ^ 21 := length_enc_le_iff x (by omega)
  have hfive (x : Word) : (enc x).length ≤ 5 ↔ x.toNat < 2 ^ 35 := length_enc_le_iff x (by omega)
  refine ⟨rfl, rfl, rfl, fun x => ⟨fun h => (hthree x).2 (by omega), fun h => (hfive x).2 (by omega),
    length_enc_le x⟩, by decide, by decide, by decide, fun v hlo hhi => ⟨?_, ?_, length_enc_le _⟩⟩
  · rw [hthree]
    have hz := zz_bits64_toNat hlo (by omega)
    omega
  · rw [hfive]
    have hz := zz_bits64_toNat hlo (by omega)
    omega

/-- Settles O23: each range of the image is a range of values of either sign. -/
theorem signedLengthByValue : Obligations.SignedLengthByValue := by
  refine ⟨fun v hlo hhi => ?_, by decide, by decide, by decide, by decide, by decide⟩
  have hz := zz_bits64_toNat hlo hhi
  generalize zz (bits64 v) = u at hz ⊢
  refine ⟨length_enc u, ?_, fun k hk _ => ?_, ?_⟩
  · rw [length_enc_eq_one_iff]
    omega
  · have hw : (2 : Int) ^ (7 * k - 1) = 2 ^ (7 * k - 8) * 128 := by
      rw [show 7 * k - 1 = 7 * k - 8 + 7 by omega, pow_add]; rfl
    have hlow : 2 ^ (7 * (k - 1)) = 2 ^ (7 * k - 8) * 2 := by
      rw [show 7 * (k - 1) = 7 * k - 8 + 1 by omega, Nat.pow_add]
    have hhigh : 2 ^ (7 * k) = 2 ^ (7 * k - 8) * 256 := by
      rw [show 7 * k = 7 * k - 8 + 8 by omega, Nat.pow_add]; rfl
    have hcast : ((2 ^ (7 * k - 8) : Nat) : Int) = 2 ^ (7 * k - 8) := by push_cast; rfl
    rw [length_enc_eq_iff u hk, hw, hlow, hhigh, ← hcast]
    omega
  · rw [length_enc_eq_ten_iff]
    omega

/-- Settles O25: the two inverses hold for all patterns; the extremes by evaluation. -/
theorem zigzagMapsAreInverse : Obligations.ZigzagMapsAreInverse :=
  ⟨unzz_zz, zz_unzz, by decide, by decide, by decide, by decide, by decide⟩

end Sys2Proof.Machine

/-! PROOFS of the family `other`, decoders: what the scan answers on a form, on ten continuation bytes and by the
class of the tail. -/

namespace Sys2Proof.Machine

variable {s t : State} {v : Word} {c : Int} {b : Byte} {cs e : List Byte}

/-! ### Buffers that end in a form, or in ten continuation bytes -/

/-- A form at the tail that fits 64 bits is what the scan answers (R83). -/
theorem scanTail_of_isValueForm (before : List Byte) (h : IsValueForm e) :
    scanTail 10 0 (before ++ e).reverse = (BitVec.ofNat 64 (formVal e), (e.length : Int)) := by
  obtain ⟨hform, hfits⟩ := h
  obtain ⟨b, cs, rfl, hb, hc, hl⟩ := isForm_cons hform
  refine scanTail_term_fits before hb hc hl ?_
  rw [← payload_toNat_of_term hb]
  exact formFits_cons_iff.1 hfits

/-- An encoding at the tail is read back (R69, item 6). -/
theorem scanTail_enc (before : List Byte) (x : Word) :
    scanTail 10 0 (before ++ enc x).reverse = (x, (groupCount x : Int) + 1) := by
  rw [scanTail_of_isValueForm before (enc_isValueForm x), formVal_enc, length_enc, BitVec.ofNat_toNat,
    BitVec.setWidth_eq, Nat.cast_succ]

/-- Settles O35: the eleventh byte is not read. -/
theorem overflowByLength : Obligations.OverflowByLength := by
  intro s before cs b hwf hbytes hl hc
  rw [exec_decodeUnsigned_iff hwf, hbytes]
  exact scanTail_long before cs b hc hl

/-- Settles O37: the scan meets the head after ten continuation bytes, or one byte more. -/
theorem continuationAtTheTenthByte : Obligations.ContinuationAtTheTenthByte := by
  intro s before cs hwf hbytes hl hc
  rw [exec_decodeUnsigned_iff hwf, exec_decodeUnsigned_iff hwf, hbytes]
  refine ⟨fun hnil => ?_, fun hne => ?_⟩
  · rw [hnil, List.nil_append, scanTail_eq_zero_count_iff]
    exact ⟨rfl, hl.le, hc⟩
  · obtain ⟨p, b, rfl⟩ := before.eq_nil_or_concat'.resolve_left hne
    rw [List.append_assoc, List.singleton_append]
    exact scanTail_long p cs b hc hl

/-- A byte below 0x80 is a form by itself. -/
theorem isValueForm_singleton (hb : contBit b = false) : IsValueForm [b] :=
  isValueForm_of_cons hb (by simp) (by simp) (by simp)

/-- Settles O46: the last byte alone is a form, and denotes itself. -/
theorem lastByteBelow80IsAValue : Obligations.LastByteBelow80IsAValue := by
  intro s before b hwf hbytes hb
  have hterm : contBit b = false := by
    cases h : contBit b with
    | false => rfl
    | true => have := payload_toNat_of_cont h; omega
  rw [exec_decodeUnsigned_iff hwf, hbytes, scanTail_of_isValueForm before (isValueForm_singleton hterm)]
  simp [formVal, payload_toNat_of_term hterm]

/-- A terminator of 0 fits at any length (R55). -/
theorem isValueForm_of_head_zero (h : IsForm e) (hz : e.head? = some 0) : IsValueForm e := by
  obtain ⟨b, cs, rfl, hb, hc, hl⟩ := isForm_cons h
  obtain rfl : b = 0 := Option.some.inj hz
  exact isValueForm_of_cons hb hc hl fun _ => by decide

/-- Settles O44: a padded form fits, and an encoding of two bytes or more does not begin with 0. -/
theorem paddedFormsAreAccepted : Obligations.PaddedFormsAreAccepted := by
  refine ⟨fun s before e hwf hbytes hform hlen hz => ⟨?_, ?_⟩, by decide, by decide⟩
  · rw [exec_decodeUnsigned_iff hwf, hbytes]
    exact scanTail_of_isValueForm before (isValueForm_of_head_zero hform hz)
  · rintro ⟨x, rfl⟩
    rw [length_enc] at hlen
    exact enc_head_ne_zero (by omega) (List.head?_eq_getElem?.symm.trans hz)

/-! ### The answer of a decode that is given to have one -/

/-- The response of a decode that answered is what the scan answers. -/
theorem scanTail_of_exec_decodeUnsigned (hwf : s.B.wf) (h : exec .decodeUnsigned s = .next t)
    (hr : t.response = some (Response.decoded v c)) : scanTail 10 0 s.B.bytes.reverse = (v, c) := by
  rw [exec_decodeUnsigned, decodeWith_eq _ hwf] at h
  injection h with h
  rw [← h, State.setResponse_response] at hr
  simpa [Response.decoded, Prod.ext_iff] using hr

theorem countClass_eq_success_iff : countClass c = .success ↔ 0 < c := by
  unfold countClass
  split_ifs <;> simp_all

/-- Settles O39: of the scan's cases only the one of a form at the tail has a positive count. -/
theorem successMeansAFormAtTheTail : Obligations.SuccessMeansAFormAtTheTail := by
  intro s t v c hwf h hr
  have hscan := scanTail_of_exec_decodeUnsigned hwf h hr
  rw [countClass_eq_success_iff]
  constructor
  · intro hpos
    obtain ⟨-, -, hans⟩ | ⟨_, _, _, -, -, -, hans⟩ | ⟨_, _, _, -, -, -, -, -, hans⟩ |
      ⟨before, b, cs, hbytes, hb, hc, hl, hfit, hans⟩ := scanTail_cases s.B.bytes <;>
      obtain ⟨rfl, rfl⟩ := Prod.mk.inj (hans.symm.trans hscan)
    · omega
    · omega
    · omega
    · rw [← payload_toNat_of_term hb] at hfit
      have hform : IsValueForm (b :: cs) := isValueForm_of_cons hb hc hl (by omega)
      exact ⟨before, b :: cs, hbytes, hform, (Nat.cast_succ _).symm,
        Nat.mod_eq_of_lt (formVal_lt_of_isValueForm hform)⟩
  · rintro ⟨before, e, -, ⟨hform, -⟩, rfl, -⟩
    obtain ⟨b, cs, rfl, -⟩ := isForm_cons hform
    simp

/-! ### The counts, in any state (R88) -/

/-- A byte that ends the scan gives a failure of -10 without a value, or its place as the count. -/
theorem byteStep_done {i : Nat} {acc : Word} (hi : i < 10) (h : byteStep i acc b = .done v c) :
    IsDecodeCount c ∧ (c ≤ 0 → v = 0) := by
  unfold byteStep at h
  split at h
  · cases h
  · split at h <;> obtain ⟨rfl, rfl⟩ := ByteStep.done.inj h
    · exact ⟨.inr (.inl rfl), fun _ => rfl⟩
    · exact ⟨.inr (.inr (.inr (by omega))), by omega⟩

/-- Whatever the region, a scan that answers has one of the 13 counts, and no value unless it is positive. -/
theorem scan_isDecodeCount {m : Memory} {r : Nat} {acc : Word} (hr : r ≤ 10)
    (h : scan m r acc = .ok (v, c)) : IsDecodeCount c ∧ (c ≤ 0 → v = 0) := by
  induction r generalizing acc with
  | zero =>
    unfold scan at h
    split at h <;> obtain ⟨rfl, rfl⟩ := Prod.mk.inj (Except.ok.inj h)
    · exact ⟨.inr (.inr (.inl rfl)), fun _ => rfl⟩
    · exact ⟨.inl rfl, fun _ => rfl⟩
  | succ r ih =>
    simp only [scan] at h
    split at h
    · obtain ⟨rfl, rfl⟩ := Prod.mk.inj (Except.ok.inj h)
      exact ⟨.inr (.inr (.inl rfl)), fun _ => rfl⟩
    · split at h
      · cases h
      · split at h
        next hdone =>
          obtain ⟨rfl, rfl⟩ := Prod.mk.inj (Except.ok.inj h)
          exact byteStep_done (by simp only [Config.maxLen64]; omega) hdone
        next => exact ih (by omega) h

/-- Settles O40: the response is what the scan answers, in canonical form or not. -/
theorem decodeCountsAreThirteen : Obligations.DecodeCountsAreThirteen := by
  intro s t h
  rw [exec_decodeUnsigned] at h
  obtain ⟨u, c, hdec, rfl⟩ := decodeWith_cases h
  exact ⟨u, c, rfl, scan_isDecodeCount le_rfl hdec⟩

/-! ### What a decode depends on (R89) -/

/-- With `r` positions left the scan reads `r` bytes, and then whether there are more. -/
theorem scanTail_congr {r : Nat} {acc : Word} {l l' : List Byte} (htake : l.take r = l'.take r)
    (hmore : r < l.length ↔ r < l'.length) : scanTail r acc l = scanTail r acc l' := by
  induction r generalizing acc l l' with
  | zero =>
    cases l with
    | nil =>
      obtain rfl : l' = [] := by simpa using hmore
      rfl
    | cons b l =>
      obtain ⟨b', l', rfl⟩ := List.exists_cons_of_length_pos (hmore.1 (Nat.succ_pos _))
      rfl
  | succ r ih =>
    cases l with
    | nil =>
      obtain rfl : l' = [] := by simpa using htake.symm
      rfl
    | cons b l =>
      cases l' with
      | nil => simp at htake
      | cons b' l' =>
        rw [List.take_succ_cons, List.take_succ_cons] at htake
        obtain ⟨rfl, htail⟩ := List.cons.inj htake
        have hrest (acc) := ih (acc := acc) htail (by simpa using hmore)
        simp only [scanTail, hrest]

/-- Settles O41: reversed, the last ten bytes are the first ten; an encoding is a form. -/
theorem decodeDependsOnTheLastTenBytes : Obligations.DecodeDependsOnTheLastTenBytes := by
  refine ⟨fun s t v c hs ht hlast hmore h => ?_, fun s before x hwf hbytes => ?_⟩
  · rw [exec_decodeUnsigned_iff hs] at h
    rw [exec_decodeUnsigned_iff ht, ← h]
    refine scanTail_congr ?_ (by simpa using hmore.symm)
    simp only [List.take_reverse, Memory.len_bytes, hlast]
  · rw [exec_decodeUnsigned_iff hwf, hbytes]
    exact scanTail_of_isValueForm before (enc_isValueForm x)

/-! ### Truncating by the count (R120, R121) -/

/-- The magnitude of the count is the number of bytes the scan has met, and never more than there are. -/
theorem scanTail_natAbs_le (l : List Byte) (h : scanTail 10 0 l.reverse = (v, c)) :
    c.natAbs ≤ l.length := by
  obtain ⟨-, -, hans⟩ | ⟨_, _, _, rfl, hl, -, hans⟩ | ⟨_, _, _, rfl, -, -, hl, -, hans⟩ |
    ⟨_, _, _, rfl, -, -, -, -, hans⟩ := scanTail_cases l <;>
    obtain ⟨rfl, rfl⟩ := Prod.mk.inj (hans.symm.trans h) <;> simp <;> omega

/-- A truncation within the buffer completes. -/
theorem performCaller_truncate {k : Nat} (hk : k ≤ s.B.len) :
    performCaller (.truncate k) s = .next (s.setB (s.B.dropTail k)) := if_pos hk

/-- Either decoder answers the scan's count and the image of its value under some map. -/
theorem exec_decoder {i : Instr} (hi : i = .decodeUnsigned ∨ i = .decodeSigned) :
    ∃ f, ∀ s, exec i s = decodeWith f s := by
  obtain rfl | rfl := hi
  · exact ⟨_, exec_decodeUnsigned⟩
  · exact ⟨_, exec_decodeSigned⟩

/-- Settles O45: the decode changes the response only, so a second one reads the same bytes, and the count is
within the buffer. -/
theorem countAllowsTruncation : Obligations.CountAllowsTruncation := by
  intro s t i v c hwf hi h hr
  obtain ⟨f, hf⟩ := exec_decoder hi
  obtain ⟨u, c', hscan⟩ : ∃ u c', scanTail 10 0 s.B.bytes.reverse = (u, c') := ⟨_, _, rfl⟩
  rw [hf, decodeWith_eq f hwf, hscan] at h
  obtain rfl := Host.Outcome.next.inj h
  obtain rfl : c' = c := by simpa using congrArg (·.bind Response.cnt) hr
  have hle : c'.natAbs ≤ s.B.len := by simpa using scanTail_natAbs_le s.B.bytes hscan
  refine ⟨hle, ?_, _, performCaller_truncate hle, ?_, rfl, rfl, rfl⟩
  · rw [hf, decodeWith_eq f (s := s.setResponse _) hwf, State.setResponse_B, hscan]
    rfl
  · exact Memory.bytes_dropTail _

/-! ### The classes of the tail (R58) -/

theorem trailingConts_of_all (h : ∀ c ∈ cs, contBit c = true) : trailingConts cs = cs.length := by
  rw [trailingConts, List.takeWhile_eq_self_iff.2 (by simpa using h), List.length_reverse]

/-- The continuation bytes after the last terminator. -/
theorem trailingConts_append_term (before : List Byte) (hb : contBit b = false)
    (hc : ∀ c ∈ cs, contBit c = true) : trailingConts (before ++ b :: cs) = cs.length := by
  have hrev : (before ++ b :: cs).reverse = cs.reverse ++ b :: before.reverse := by simp
  rw [trailingConts, hrev, List.takeWhile_append_of_pos (by simpa using hc),
    List.takeWhile_cons_of_neg (by simp [hb])]
  simp

/-- Continuation bytes at the end are all counted. -/
theorem length_le_trailingConts (before : List Byte) (hc : ∀ c ∈ cs, contBit c = true) :
    cs.length ≤ trailingConts (before ++ cs) := by
  rw [trailingConts, List.reverse_append, List.takeWhile_append_of_pos (by simpa using hc)]
  simp

/-- At most ten bytes, all continuation bytes: too small, empty or not. -/
theorem tailVerdict_of_all_conts (hc : ∀ c ∈ cs, contBit c = true) (hl : cs.length ≤ 10) :
    tailVerdict cs = (0, 0) := by
  by_cases h : cs.length = 0
  · simp [tailVerdict, tailClass, h]
  · simp [tailVerdict, tailClass, h, trailingConts_of_all hc, hl]

/-- Ten continuation bytes at the end and a byte before them: too long. -/
theorem tailVerdict_of_long (before : List Byte) (b : Byte) (hc : ∀ c ∈ cs, contBit c = true)
    (hl : cs.length = 10) : tailVerdict (before ++ b :: cs) = (0, -11) := by
  have ht : 10 ≤ trailingConts (before ++ b :: cs) := by
    simpa [hl] using length_le_trailingConts (before ++ [b]) hc
  have hlen : 11 ≤ (before ++ b :: cs).length := by simp [hl]
  have hclass : tailClass (before ++ b :: cs) = .tooLong := by
    simp only [tailClass]
    rw [if_neg (by omega), if_neg (by omega), if_neg (by omega), if_pos ht]
  simp only [tailVerdict, hclass]

/-- A terminator before at most nine continuation bytes: complete, and of ten bytes if it fits. -/
theorem tailVerdict_of_term (before : List Byte) (hb : contBit b = false)
    (hc : ∀ c ∈ cs, contBit c = true) (hl : cs.length ≤ 9) :
    tailVerdict (before ++ b :: cs) =
      if cs.length = 9 ∧ 1 < b.toNat then (0, -10) else (formVal (b :: cs), (cs.length : Int) + 1) := by
  have ht := trailingConts_append_term before hb hc
  have hlen : (before ++ b :: cs).length = before.length + (cs.length + 1) := by simp
  have hform : (before ++ b :: cs).drop ((before ++ b :: cs).length - (cs.length + 1)) = b :: cs := by
    rw [hlen, Nat.add_sub_cancel, List.drop_left]
  by_cases hnine : cs.length = 9
  · rw [hnine] at ht hlen hform
    have hclass : tailClass (before ++ b :: cs) =
        if b.toNat ≤ 1 then .completeTenFits else .completeTenTooLarge := by
      simp only [tailClass, ht]
      rw [if_neg (by omega), if_neg (by omega), if_neg (by omega), if_neg (by omega), hform]
      simp [payload_toNat_of_term hb]
    by_cases hbig : 1 < b.toNat
    · simp [tailVerdict, hclass, hnine, hbig, Nat.not_le.2 hbig]
    · simp only [tailVerdict, hclass, if_pos (Nat.not_lt.1 hbig), hform, hnine, hbig]
      rfl
  · have hclass : tailClass (before ++ b :: cs) = .complete := by
      simp only [tailClass, ht]
      rw [if_neg (by omega), if_neg (by omega), if_pos (by omega)]
    simp only [tailVerdict, hclass, ht, hform, hnine, false_and, if_false]

/-- The scan and the classes agree on every sequence of bytes. -/
theorem scanTail_eq_tailVerdict (l : List Byte) :
    (tailVerdict l).1 < 2 ^ 64 ∧
      scanTail 10 0 l.reverse = (BitVec.ofNat 64 (tailVerdict l).1, (tailVerdict l).2) := by
  obtain ⟨hc, hl, hans⟩ | ⟨before, b, cs, rfl, hl, hc, hans⟩ |
    ⟨before, b, cs, rfl, hb, hc, hl, hbig, hans⟩ | ⟨before, b, cs, rfl, hb, hc, hl, hfit, hans⟩ :=
    scanTail_cases l <;> rw [hans]
  · rw [tailVerdict_of_all_conts hc hl]
    exact ⟨by decide, rfl⟩
  · rw [tailVerdict_of_long before b hc hl]
    exact ⟨by decide, rfl⟩
  · rw [tailVerdict_of_term before hb hc hl.le, if_pos ⟨hl, hbig⟩]
    exact ⟨by decide, rfl⟩
  · rw [tailVerdict_of_term before hb hc hl, if_neg hfit]
    rw [← payload_toNat_of_term hb] at hfit
    exact ⟨formVal_lt_of_isValueForm (isValueForm_of_cons hb hc hl (by omega)), rfl⟩

/-- Settles O38: the decode answers what the scan answers. -/
theorem scanAgreesWithTailClasses : Obligations.ScanAgreesWithTailClasses := by
  intro s hwf
  rw [exec_decodeUnsigned_iff hwf]
  exact scanTail_eq_tailVerdict s.B.bytes

end Sys2Proof.Machine

/-! PROOFS of the family `other`, encoders and the caller: what an "into" encode does, what a caller action does,
and values written and read back. -/

namespace Sys2Proof.Machine

variable {s : State} {i : Instr} {f g : Word → Word}

/-! ### An "into" encode, with the capacity and without (R71, R72) -/

theorem exec_encodeUnsignedInto (x : Word) (s : State) :
    exec (.encodeUnsignedInto x) s = intoEncoding x s := rfl

theorem exec_encodeSignedInto (x : Word) (s : State) :
    exec (.encodeSignedInto x) s = intoEncoding (zz x) s := rfl

/-- Settles O32: both encoders of a variant are the one shared operation. -/
theorem signedEncodersExpand : Obligations.SignedEncodersExpand := fun x s =>
  ⟨(exec_encodeSignedAppend x s).trans (exec_encodeUnsignedAppend (zz x) s).symm,
    (exec_encodeSignedInto x s).trans (exec_encodeUnsignedInto (zz x) s).symm⟩

/-- Each "into" encoder writes the encoding of its operand or of its image. -/
theorem exec_into (hi : ∃ x, i = .encodeUnsignedInto x ∨ i = .encodeSignedInto x) :
    ∃ u, ∀ s, exec i s = intoEncoding u s := by
  obtain ⟨x, rfl | rfl⟩ := hi
  · exact ⟨x, exec_encodeUnsignedInto x⟩
  · exact ⟨zz x, exec_encodeSignedInto x⟩

/-- With ten bytes of capacity: the encoding of `u` at the front of the slice, nothing else changed. -/
theorem intoEncoding_completes (u : Word) (hwf : s.D.wf) (hcap : 10 ≤ s.D.len) :
    ∃ t, intoEncoding u s = .next t ∧
      t.response = some (Response.written (groupCount u + 1)) ∧
      t.D.wf ∧ t.D.len = s.D.len ∧ t.D.bytes.take (groupCount u + 1) = enc u ∧
      (∀ j, j < groupCount u + 1 → t.D.read j = (enc u)[j]?) ∧
      (∀ a, groupCount u + 1 ≤ a → t.D.read a = s.D.read a) ∧
      t.B = s.B ∧ t.outcome = s.outcome ∧ t.pending = s.pending := by
  obtain ⟨d, hd, hdwf, hlen, hbytes⟩ := intoEncoding_ok u hwf hcap
  have hl := length_enc u
  refine ⟨_, hd, rfl, hdwf, hlen, ?_, fun j hj => ?_, fun a ha => ?_, rfl, rfl, rfl⟩
  · exact hbytes ▸ List.take_left' hl
  · rw [← hl] at hj
    simp only [State.setResponse_D, State.setD_D]
    rw [Memory.read_eq hdwf, hbytes, List.getElem?_append_left hj]
  · rw [← hl] at ha
    simp only [State.setResponse_D, State.setD_D]
    rw [Memory.read_eq hdwf, Memory.read_eq hwf, hbytes, List.getElem?_append_right ha,
      List.getElem?_drop, ← hl, Nat.add_sub_cancel' ha]

/-- Below ten bytes of capacity: the fault, and neither region changed. -/
theorem intoEncoding_faults (u : Word) (hcap : s.D.len < 10) :
    ∃ t, intoEncoding u s = .next t ∧
      t.outcome = .faulted s.D.len ∧ t.response = some (Response.faulted s.D.len) ∧
      t.D = s.D ∧ t.B = s.B ∧ t.pending = s.pending :=
  ⟨_, intoEncoding_short u hcap, rfl, rfl, rfl, rfl, rfl⟩

/-- Settles O28: the unsigned encoder writes its operand as it is. -/
theorem unsignedIntoCompletes : Obligations.UnsignedIntoCompletes := fun s x => by
  rw [exec_encodeUnsignedInto]
  exact ⟨intoEncoding_completes x, intoEncoding_faults x⟩

/-- Settles O29: the signed encoder writes the zig-zag image of its operand. -/
theorem signedIntoCompletes : Obligations.SignedIntoCompletes := fun s x => by
  rw [exec_encodeSignedInto]
  exact ⟨intoEncoding_completes (zz x), intoEncoding_faults (zz x)⟩

/-- Settles O30: with the capacity the outcome stays `running`, without it the fault is taken. -/
theorem capacityCheckIgnoresTheValue : Obligations.CapacityCheckIgnoresTheValue := by
  intro s i hwf hrun hi
  obtain ⟨u, hu⟩ := exec_into hi
  rw [hu]
  refine ⟨fun ⟨t, ht, hfault, _⟩ => ?_, fun hcap => ?_⟩
  · by_contra hcap
    obtain ⟨d, hd, -⟩ := intoEncoding_ok u hwf (Nat.not_lt.1 hcap)
    obtain rfl := Host.Outcome.next.inj (hd.symm.trans ht)
    simp [hrun] at hfault
  · exact ⟨_, intoEncoding_short u hcap, rfl, rfl⟩

/-- Settles O31: taking the fault sets the outcome and a response without count and value. -/
theorem capacityViolationIsPrecise : Obligations.CapacityViolationIsPrecise := by
  intro s i hcap hi
  obtain ⟨u, hu⟩ := exec_into hi
  rw [hu]
  exact ⟨_, intoEncoding_short u hcap, rfl, rfl, rfl, fun _ => rfl, fun _ => rfl, _, rfl, rfl, rfl, rfl⟩

/-! ### Appends -/

/-- Settles O56: an encoding has one byte at least and ten at most. -/
theorem appendStaysWithinBufCap : Obligations.AppendStaysWithinBufCap := by
  intro s bufCap x i hroom hi
  have happend (u : Word) : ∃ t, appendEncoding u s = .next t ∧
      s.B.len + 1 ≤ t.B.len ∧ t.B.len ≤ bufCap := by
    refine ⟨_, appendEncoding_eq u s, ?_⟩
    have hmax := groupCount_le u
    simp only [State.roomToAppend, Config.maxLen64] at hroom
    simp only [State.setResponse_B, State.setB_B, Memory.len_appendAll, length_enc]
    omega
  obtain rfl | rfl := hi
  · exact happend x
  · exact happend (zz x)

/-- A copy of no more bytes than the slice has completes. -/
theorem performCaller_copyToB {k : Nat} (hk : k ≤ s.D.len) :
    performCaller (.copyToB k) s = .next (s.setB (s.B.appendAll (s.D.bytes.take k))) := if_pos hk

/-- The bytes an "into" encode of `u` counts are the bytes an append of `u` writes. -/
theorem intoEncoding_then_copy (u : Word) (hwf : s.D.wf) (hcap : 10 ≤ s.D.len) :
    ∃ (t t' w : State) (c : Nat),
      intoEncoding u s = .next t ∧ t.response = some (Response.written c) ∧
      performCaller (.copyToB c) t = .next t' ∧ appendEncoding u s = .next w ∧ t'.B = w.B := by
  obtain ⟨t, ht, hresp, -, hlen, htake, -, -, hB, -, -⟩ := intoEncoding_completes u hwf hcap
  have hmax := groupCount_le u
  refine ⟨t, _, _, groupCount u + 1, ht, by simpa using hresp,
    performCaller_copyToB (by omega), appendEncoding_eq u s, ?_⟩
  simp [htake, hB]

/-- Settles O50: both pairs encode the same pattern. -/
theorem intoThenCopyIsAppend : Obligations.IntoThenCopyIsAppend := by
  intro s i j x hwf hcap hij
  obtain ⟨rfl, rfl⟩ | ⟨rfl, rfl⟩ := hij
  · exact intoEncoding_then_copy x hwf.2 hcap
  · exact intoEncoding_then_copy (zz x) hwf.2 hcap

/-! ### What was appended last is what a decode reads -/

/-- A decode of a buffer that ends in what was appended for `u` answers the image of `u` and the length, whatever
stands before it. -/
theorem decodeWith_appendAll_enc {m : Memory} {u : Word} (hm : m.wf) (hB : s.B = m.appendAll (enc u)) :
    decodeWith g s = .next (s.setResponse (Response.decoded (g u) (groupCount u + 1))) := by
  rw [decodeWith_eq g (hB ▸ Memory.wf_appendAll hm (enc u)), hB, Memory.bytes_appendAll, scanTail_enc]

/-- An append encode of `u` and a decode after it. -/
theorem appendEncoding_then_decodeWith (u : Word) (g : Word → Word) (hwf : s.B.wf) :
    ∃ t, appendEncoding u s = .next t ∧
      decodeWith g t = .next (t.setResponse (Response.decoded (g u) (groupCount u + 1))) :=
  ⟨_, appendEncoding_eq u s, decodeWith_appendAll_enc hwf rfl⟩

/-- Settles O47: the unsigned pair has no map on either side. -/
theorem unsignedRoundTrip : Obligations.UnsignedRoundTrip := fun _ x hwf =>
  appendEncoding_then_decodeWith x (fun u => u) hwf

/-- Settles O48: the decoder's map undoes the encoder's, and the pattern has the value it was made of. -/
theorem signedRoundTrip : Obligations.SignedRoundTrip := by
  intro s v hwf hlo hhi
  obtain ⟨t, ht, hdec⟩ := appendEncoding_then_decodeWith (zz (bits64 v)) unzz hwf
  rw [unzz_zz] at hdec
  exact ⟨t, ht, bits64 v, hdec, signed64_bits64 hlo hhi⟩

/-- Settles O51: the map of the one side is left over. -/
theorem mismatchedDecoderAnswersTheImage : Obligations.MismatchedDecoderAnswersTheImage :=
  fun _ x hwf => ⟨appendEncoding_then_decodeWith (zz x) (fun u => u) hwf,
    appendEncoding_then_decodeWith x unzz hwf⟩

/-! ### Values written in sequence (R57) -/

/-- The bytes of the values' images under `f`, encoded one after another. -/
def encSequence (f : Word → Word) (xs : List Word) : List Byte := xs.flatMap fun x => enc (f x)

theorem encSequence_cons (f : Word → Word) (x : Word) (xs : List Word) :
    encSequence f (x :: xs) = enc (f x) ++ encSequence f xs := List.flatMap_cons

theorem encSequence_concat (f : Word → Word) (xs : List Word) (x : Word) :
    encSequence f (xs ++ [x]) = encSequence f xs ++ enc (f x) := by
  simp [encSequence]

/-- Appending two lists of bytes is appending the one, then the other. -/
theorem Memory.appendAll_append (m : Memory) (bs cs : List Byte) :
    m.appendAll (bs ++ cs) = (m.appendAll bs).appendAll cs := List.foldl_append

/-- Encoding in sequence appends the bytes of all the values and changes nothing else but the response. -/
theorem appendValues_completes {mk : Word → Instr} (hmk : ∀ x s, exec (mk x) s = appendEncoding (f x) s)
    (xs : List Word) (s : State) :
    ∃ t, appendValues mk xs s = some t ∧ t.B = s.B.appendAll (encSequence f xs) ∧
      t.D = s.D ∧ t.outcome = s.outcome ∧ t.pending = s.pending := by
  induction xs generalizing s with
  | nil => exact ⟨s, rfl, rfl, rfl, rfl, rfl⟩
  | cons x xs ih =>
    obtain ⟨t, ht, hB, hrest⟩ := ih ((s.setB (s.B.appendAll (enc (f x)))).setResponse Response.appended)
    refine ⟨t, ?_, ?_, hrest⟩
    · simp only [appendValues, hmk, appendEncoding_eq, ht]
    · rw [hB, encSequence_cons, Memory.appendAll_append, State.setResponse_B, State.setB_B]

/-- One value read back: a decode that succeeds, and a truncation by its count. -/
theorem readBack_succ {v : Word} {c : Int} (k : Nat)
    (hdec : exec i s = .next (s.setResponse (Response.decoded v c))) (hpos : 0 < c)
    (hle : c.toNat ≤ s.B.len) :
    readBack i (k + 1) s =
      (readBack i k ((s.setResponse (Response.decoded v c)).setB (s.B.dropTail c.toNat))).map
        fun p => (v :: p.1, p.2) := by
  have htrunc := performCaller_truncate (s := s.setResponse (Response.decoded v c)) hle
  simp only [readBack, hdec, State.setResponse_response, Response.decoded,
    countClass_eq_success_iff.2 hpos] at htrunc ⊢
  simp only [htrunc, State.setResponse_B]

/-- Reading back from a buffer that ends in what was appended for `u` reads the image of `u`, and goes on with the
buffer before the append. -/
theorem readBack_appendAll_enc {m : Memory} {u : Word} (hdec : ∀ s, exec i s = decodeWith g s)
    (hm : m.wf) (hB : s.B = m.appendAll (enc u)) (k : Nat) :
    ∃ t, readBack i (k + 1) s = (readBack i k t).map (fun p => (g u :: p.1, p.2)) ∧
      t.B = m ∧ t.D = s.D ∧ t.outcome = s.outcome ∧ t.pending = s.pending := by
  have hlen : ((groupCount u : Int) + 1).toNat = (enc u).length := by rw [length_enc]; omega
  have hread := readBack_succ k ((hdec s).trans (decodeWith_appendAll_enc hm hB)) (by omega)
    (by rw [hlen, hB, Memory.len_appendAll]; omega)
  rw [hlen, hB, Memory.dropTail_appendAll] at hread
  exact ⟨_, hread, rfl, rfl, rfl, rfl⟩

/-- Reading back as many values as were encoded last gives them in reverse, by the map that undoes the encoder's,
and leaves the buffer before them. -/
theorem readBack_encSequence {m : Memory} (hdec : ∀ s, exec i s = decodeWith g s)
    (hinv : ∀ x, g (f x) = x) (hm : m.wf) (xs : List Word) (s : State)
    (hB : s.B = m.appendAll (encSequence f xs)) :
    ∃ u, readBack i xs.length s = some (xs.reverse, u) ∧
      u.B = m ∧ u.D = s.D ∧ u.outcome = s.outcome ∧ u.pending = s.pending := by
  induction xs using List.reverseRecOn generalizing s with
  | nil => exact ⟨s, rfl, hB, rfl, rfl, rfl⟩
  | append_singleton xs x ih =>
    have hlast : s.B = (m.appendAll (encSequence f xs)).appendAll (enc (f x)) := by
      rw [hB, encSequence_concat, Memory.appendAll_append]
    obtain ⟨t, hread, htB, htD, hto, htp⟩ :=
      readBack_appendAll_enc hdec (Memory.wf_appendAll hm _) hlast xs.length
    obtain ⟨u, hu, huB, huD, huo, hup⟩ := ih t htB
    refine ⟨u, ?_, huB, huD.trans htD, huo.trans hto, hup.trans htp⟩
    rw [List.length_append, List.length_singleton, hread, hu, hinv]
    simp

/-- Encoding in sequence, then reading back, for an encoder and a decoder whose maps undo each other. -/
theorem appendValues_then_readBack {mk : Word → Instr} (hmk : ∀ x s, exec (mk x) s = appendEncoding (f x) s)
    (hdec : ∀ s, exec i s = decodeWith g s) (hinv : ∀ x, g (f x) = x) (hwf : s.B.wf) (xs : List Word) :
    ∃ t u, appendValues mk xs s = some t ∧ readBack i xs.length t = some (xs.reverse, u) ∧
      u.B = s.B ∧ u.D = s.D ∧ u.outcome = s.outcome ∧ u.pending = s.pending := by
  obtain ⟨t, ht, hB, hD, ho, hp⟩ := appendValues_completes hmk xs s
  obtain ⟨u, hu, huB, huD, huo, hup⟩ := readBack_encSequence hdec hinv hwf xs t hB
  exact ⟨t, u, ht, hu, huB, huD.trans hD, huo.trans ho, hup.trans hp⟩

/-- Settles O49: the unsigned pair with no map, the signed pair with the zig-zag map and its inverse. -/
theorem appendedValuesReadBackReversed : Obligations.AppendedValuesReadBackReversed := fun _ xs hwf =>
  ⟨appendValues_then_readBack exec_encodeUnsignedAppend exec_decodeUnsigned (fun _ => rfl) hwf xs,
    appendValues_then_readBack exec_encodeSignedAppend exec_decodeSigned unzz_zz hwf xs⟩

end Sys2Proof.Machine

/-! PROOFS of the family `other`, decoding and the caller: what the words of the table decode to, and what a step
does with what the caller issues. -/

namespace Sys2Proof

/-! ### Requests and table words (R61) -/

/-- Settles O7: the code selects the row, and the row says whether it has an operand. -/
theorem operationCodesSelect : Obligations.OperationCodesSelect := fun _ =>
  ⟨rfl, rfl, rfl, rfl, rfl, rfl, rfl, rfl⟩

/-- Settles O8: each word by evaluation. -/
theorem tableWordsDecodeToTheirRows : Obligations.TableWordsDecodeToTheirRows :=
  ⟨rfl, rfl, rfl, rfl, rfl, rfl, rfl, rfl, rfl, rfl⟩

theorem encode_decode_encodedByte (b : Byte) : encode (decode (.encodedByte b)) = .encodedByte b := by
  cases h : contBit b with
  | false => rw [decode_encodedByte_of_term h, encode, termByteOf_payload h]
  | true => rw [decode_encodedByte_of_cont h, encode, contByteOf_payload h]

theorem opCode_cases (op : OpCode) :
    op = 0 ∨ op = 1 ∨ op = 2 ∨ op = 3 ∨ op = 4 ∨ op = 5 ∨ op = 6 ∨ op = 7 := by
  revert op; decide

/-- Settles O12: a byte by its format, a request by its code. -/
theorem encodeUndoesDecode : Obligations.EncodeUndoesDecode := by
  refine ⟨encode_decode_encodedByte, fun op x => ?_⟩
  obtain rfl | rfl | rfl | rfl | rfl | rfl | rfl | rfl := opCode_cases op <;> rfl

/-- A word that decodes is presented as something that decodes to the same. -/
theorem presentTableWord_of_decodeTableWord {nbits w : Nat} {i : Instr}
    (h : decodeTableWord nbits w = some i) : ∃ p, presentTableWord nbits w = .ok p ∧ decode p = i := by
  unfold decodeTableWord at h
  split at h
  next p hp => exact ⟨p, hp, Option.some.inj h⟩
  next => cases h

namespace Machine

variable {s : State} {rest : List Event}

/-! ### The step, by the outcome and what is pending -/

theorem step_faulted {cap : Nat} (h : s.outcome = .faulted cap) :
    step s = .fault (.capacityViolation cap) := by simp only [step, h]

theorem step_silent (ho : s.outcome = .running) (hp : s.pending = []) : step s = .next s := by
  simp only [step, ho, hp]

theorem step_present {p : Presented} (ho : s.outcome = .running) (hp : s.pending = .present p :: rest) :
    step s = exec (decode p) (s.setPending rest) := by simp only [step, ho, hp]

theorem step_caller {a : CallerAction} (ho : s.outcome = .running) (hp : s.pending = .caller a :: rest) :
    step s = performCaller a (s.setPending rest) := by simp only [step, ho, hp]

/-- Settles O1: the presented head is taken off and performed. -/
theorem stepPerformsWhatIsPresented : Obligations.StepPerformsWhatIsPresented := fun _ _ _ => step_present

/-- Settles O4: nothing is pending. -/
theorem silentCallerChangesNothing : Obligations.SilentCallerChangesNothing := fun _ => step_silent

/-- Settles O2: the word is placed at the head, and the step takes it off again. -/
theorem placedTableWordRunsNext : Obligations.PlacedTableWordRunsNext := by
  intro s nbits w i ho h
  obtain ⟨p, hp, rfl⟩ := presentTableWord_of_decodeTableWord h
  have hplaced : s.withFetchWord nbits w = s.setPending (.present p :: s.pending) := by
    simp only [State.withFetchWord, hp]
  exact hplaced ▸ step_present (s := s.setPending _) ho rfl

/-- Settles O5: a faulted run has no next state, so nothing is reached but the state itself. -/
theorem faultedRunPerformsNothing : Obligations.FaultedRunPerformsNothing := by
  intro s cap ho
  refine ⟨step_faulted ho, rfl, fun t hreach => ?_⟩
  induction hreach with
  | refl => rfl
  | tail _ hstep ih =>
    rw [ih, step_faulted ho] at hstep
    cases hstep

/-! ### The caller's actions (R12, R64, R125) -/

theorem performCaller_initB (bs : List Byte) (s : State) :
    performCaller (.initB bs) s = .next (s.setB (Memory.ofBytes bs)) := rfl

theorem performCaller_initD (bs : List Byte) (s : State) :
    performCaller (.initD bs) s = .next (s.setD (Memory.ofBytes bs)) := rfl

/-- A truncation leaves every byte that stays as it was. -/
theorem Memory.read_dropTail {m : Memory} {k i : Nat} (h : m.wf) (hi : i < m.len - k) :
    (m.dropTail k).read i = m.read i := by
  rw [Memory.read_eq (Memory.wf_dropTail h k), Memory.read_eq h, Memory.bytes_dropTail,
    List.getElem?_take_of_lt hi]

/-- Settles O3: each action replaces one region by one in canonical form. -/
theorem callerActionsChangeTheirRegion : Obligations.CallerActionsChangeTheirRegion := by
  rintro s rest ho ⟨hB, hD⟩
  refine ⟨fun k hk hp => ?_, fun bs hp => ?_, fun bs hp => ?_, fun k hk hp => ?_⟩
  · exact ⟨_, (step_caller ho hp).trans (performCaller_truncate hk), Memory.bytes_dropTail k,
      fun _ => Memory.read_dropTail hB, ⟨Memory.wf_dropTail hB k, hD⟩, rfl, ho, rfl, rfl⟩
  · exact ⟨_, (step_caller ho hp).trans (performCaller_initB bs _), Memory.bytes_ofBytes bs,
      ⟨Memory.wf_ofBytes bs, hD⟩, rfl, ho, rfl, rfl⟩
  · exact ⟨_, (step_caller ho hp).trans (performCaller_initD bs _), Memory.bytes_ofBytes bs,
      ⟨hB, Memory.wf_ofBytes bs⟩, rfl, ho, rfl, rfl⟩
  · exact ⟨_, (step_caller ho hp).trans (performCaller_copyToB hk), Memory.bytes_appendAll _,
      ⟨Memory.wf_appendAll hB _, hD⟩, rfl, ho, rfl, rfl⟩

/-! ### Reset and launch (R27, R113) -/

theorem State.launch_wf (b d : List Byte) (es : List Event) : (State.launch b d es).wf :=
  ⟨Memory.wf_ofBytes b, Memory.wf_ofBytes d⟩

/-- Settles O6: the regions are made of the caller's bytes, the rest is fixed. -/
theorem launchKeepsTheCallersRegions : Obligations.LaunchKeepsTheCallersRegions :=
  ⟨fun b d es => ⟨Memory.bytes_ofBytes b, Memory.bytes_ofBytes d, State.launch_wf b d es, rfl, rfl, rfl⟩,
    rfl, rfl⟩

end Machine
end Sys2Proof

/-! PROOFS of the family `other`, the whole machine: which region an operation takes, that none accesses an index
outside it, and what every step keeps. -/

namespace Sys2Proof.Machine

variable {s t : State} {i : Instr} {u : Word}

/-! ### An operation takes one region (R25, R34) -/

/-- The six operations, by the region they take. -/
theorem wellFormed_cases (h : i.WellFormed) :
    (∃ x, i = .encodeUnsignedInto x ∨ i = .encodeSignedInto x) ∨
      ∃ x, i = .encodeUnsignedAppend x ∨ i = .encodeSignedAppend x ∨ i = .decodeUnsigned ∨
        i = .decodeSigned := by
  obtain ⟨hreq, hres⟩ := h
  cases i with
  | encodeUnsignedInto x => exact .inl ⟨x, .inl rfl⟩
  | encodeSignedInto x => exact .inl ⟨x, .inr rfl⟩
  | encodeUnsignedAppend x => exact .inr ⟨x, .inl rfl⟩
  | encodeSignedAppend x => exact .inr ⟨x, .inr (.inl rfl)⟩
  | decodeUnsigned => exact .inr ⟨0, .inr (.inr (.inl rfl))⟩
  | decodeSigned => exact .inr ⟨0, .inr (.inr (.inr rfl))⟩
  | reservedOp6 => cases hres
  | reservedOp7 => cases hres
  | termByte p => cases hreq
  | contByte p => cases hreq

/-- An operation on `B` gives the same buffer and response in every state with that buffer, and changes nothing
else. -/
theorem exec_on_B (hwf : s.B.wf)
    (hi : ∃ x, i = .encodeUnsignedAppend x ∨ i = .encodeSignedAppend x ∨ i = .decodeUnsigned ∨
      i = .decodeSigned) :
    ∃ m r, ∀ t, t.B = s.B → exec i t = .next ((t.setB m).setResponse r) := by
  have happend (u : Word) (t : State) (ht : t.B = s.B) : appendEncoding u t =
      .next ((t.setB (s.B.appendAll (enc u))).setResponse Response.appended) := by
    rw [appendEncoding_eq, ht]
  have hdecode (f : Word → Word) : ∃ r, ∀ t, t.B = s.B →
      decodeWith f t = .next ((t.setB s.B).setResponse r) :=
    ⟨Response.decoded (f (scanTail 10 0 s.B.bytes.reverse).1) (scanTail 10 0 s.B.bytes.reverse).2,
      fun t ht => by rw [decodeWith_eq f (ht ▸ hwf), ← ht]; rfl⟩
  obtain ⟨x, rfl | rfl | rfl | rfl⟩ := hi
  · exact ⟨_, _, happend x⟩
  · exact ⟨_, _, happend (zz x)⟩
  · exact ⟨_, hdecode _⟩
  · exact ⟨_, hdecode _⟩

/-- An operation on `D` gives the same slice and response in every state with that slice, leaves the outcome or
marks the fault, and changes nothing else. -/
theorem exec_on_D (hwf : s.D.wf) (hi : ∃ x, i = .encodeUnsignedInto x ∨ i = .encodeSignedInto x) :
    ∃ (d : Memory) (f : RunOutcome → RunOutcome) (r : Response), ∀ t, t.D = s.D →
      exec i t = .next (((t.setD d).setOutcome (f t.outcome)).setResponse r) := by
  obtain ⟨u, hu⟩ := exec_into hi
  simp only [hu]
  obtain hcap | hcap := Nat.lt_or_ge s.D.len 10
  · refine ⟨s.D, fun _ => .faulted s.D.len, Response.faulted s.D.len, fun t ht => ?_⟩
    rw [intoEncoding_short u (by rwa [ht]), takeCapacityViolation, ht, ← ht]
    rfl
  · have hn := groupCount_le u
    obtain ⟨d, hd, -⟩ := Memory.writeAll_ok (enc u) hwf (j := 0) (by simp; omega)
    refine ⟨d, id, Response.written (groupCount u + 1), fun t ht => ?_⟩
    have henough : ¬ s.D.len < Config.maxLen64 := Nat.not_lt.2 hcap
    simp only [intoEncoding, ht, if_neg henough, hd]
    rfl

/-- Settles O53: with both regions the same, the one that is taken is. -/
theorem operationsDependOnTheRegionsOnly : Obligations.OperationsDependOnTheRegionsOnly := by
  intro i s t hi hwf hB hD
  obtain hinto | hbuf := wellFormed_cases hi
  · obtain ⟨d, f, r, h⟩ := exec_on_D hwf.2 hinto
    exact ⟨_, _, h s rfl, h t hD.symm, hB, rfl, rfl⟩
  · obtain ⟨m, r, h⟩ := exec_on_B hwf.1 hbuf
    exact ⟨_, _, h s rfl, h t hB.symm, rfl, hD, rfl⟩

/-- Settles O54: only the region taken has to be the same. -/
theorem operationsReadTheirRegionOnly : Obligations.OperationsReadTheirRegionOnly := by
  refine ⟨fun i s t hwf hB hi => ?_, fun i s t hwf hD hi => ?_⟩
  · obtain ⟨m, r, h⟩ := exec_on_B hwf hi
    exact ⟨_, _, h s rfl, h t hB.symm, rfl, rfl, rfl, rfl⟩
  · obtain ⟨d, f, r, h⟩ := exec_on_D hwf hi
    exact ⟨_, _, h s rfl, h t hD.symm, rfl, rfl, rfl, rfl⟩

/-- Settles O55: each operation leaves the region the other takes, so it does the same before and after. -/
theorem operationsOnDistinctRegionsCommute : Obligations.OperationsOnDistinctRegionsCommute := by
  intro s i j x y hwf hi hj
  obtain ⟨m, r, hB⟩ := exec_on_B hwf.1 ⟨x, hi⟩
  obtain ⟨d, f, r', hD⟩ := exec_on_D hwf.2 ⟨y, hj⟩
  exact ⟨_, _, _, _, hB s rfl, hD _ rfl, hD s rfl, hB _ rfl, rfl, rfl, rfl, rfl, rfl⟩

/-! ### No operation faults in canonical form (R38) -/

/-- With its region in canonical form an instruction answers a next state or is refused. -/
theorem exec_ne_fault (hwf : s.wf) (i : Instr) (e : Fault) : exec i s ≠ .fault e := by
  by_cases hi : i.WellFormed
  · obtain hinto | hbuf := wellFormed_cases hi
    · obtain ⟨d, f, r, h⟩ := exec_on_D hwf.2 hinto
      simp [h s rfl]
    · obtain ⟨m, r, h⟩ := exec_on_B hwf.1 hbuf
      simp [h s rfl]
  · cases i with
    | reservedOp6 => simp
    | reservedOp7 => simp
    | termByte p => simp
    | contByte p => simp
    | _ => exact absurd ⟨rfl, rfl⟩ hi

/-- A step of a running run with canonical regions does not fault. -/
theorem step_ne_fault (hwf : s.wf) (ho : s.outcome = .running) (e : Fault) : step s ≠ .fault e := by
  cases hp : s.pending with
  | nil => simp [step_silent ho hp]
  | cons ev rest =>
    cases ev with
    | present p =>
      rw [step_present ho hp]
      exact exec_ne_fault (s := s.setPending rest) hwf _ e
    | caller a =>
      rw [step_caller ho hp]
      exact performCaller_no_fault a _ e

/-- Settles O52: only a faulted run's step faults, and with the capacity. -/
theorem noAccessOutsideARegion : Obligations.NoAccessOutsideARegion := by
  refine fun s hwf => ⟨fun i r k => exec_ne_fault hwf i _, fun r k => ?_⟩
  cases ho : s.outcome with
  | running => exact step_ne_fault hwf ho _
  | faulted cap => simp [step_faulted ho]

/-! ### The responses the spec allows (R26) -/

theorem Response.legal_appended : Response.appended.legal := .inl rfl

theorem Response.legal_written {c : Int} (hlo : 1 ≤ c) (hhi : c ≤ 10) : (Response.written c).legal :=
  .inr (.inl ⟨c, rfl, hlo, hhi⟩)

theorem Response.legal_decoded {v : Word} {c : Int} (h : IsDecodeCount c) (hv : c ≤ 0 → v = 0) :
    (Response.decoded v c).legal := .inr (.inr (.inl ⟨v, c, rfl, h, hv⟩))

theorem Response.legal_faulted {cap : Nat} (h : cap < 10) : (Response.faulted cap).legal :=
  .inr (.inr (.inr ⟨cap, rfl, h⟩))

/-! ### What an operation or a caller action leaves behind -/

/-- `t` is what an operation performed in `s` left when it completed without the fault. -/
structure CompletedFrom (s t : State) : Prop where
  wf : t.wf
  cap : t.D.len = s.D.len
  pending : t.pending = s.pending
  outcome : t.outcome = s.outcome
  response : ∀ r, t.response = some r → r.legal

theorem intoEncoding_next (hwf : s.wf) (h : intoEncoding u s = .next t) :
    (s.D.len < 10 ∧ t = takeCapacityViolation s) ∨ CompletedFrom s t := by
  obtain hfault | ⟨-, d, hd, rfl⟩ := intoEncoding_cases h
  · exact .inl hfault
  · obtain ⟨hdwf, hlen⟩ := Memory.writeAll_wf (enc u) hwf.2 hd
    have hmax := groupCount_le u
    refine .inr ⟨⟨hwf.1, hdwf⟩, hlen, rfl, rfl, ?_⟩
    rintro _ ⟨⟩
    exact Response.legal_written (by omega) (by omega)

theorem appendEncoding_next (hwf : s.wf) (h : appendEncoding u s = .next t) : CompletedFrom s t := by
  rw [appendEncoding_eq] at h
  obtain rfl := Host.Outcome.next.inj h
  refine ⟨⟨Memory.wf_appendAll hwf.1 _, hwf.2⟩, rfl, rfl, rfl, ?_⟩
  rintro _ ⟨⟩
  exact Response.legal_appended

/-- A decode completes legally under a map that keeps the value 0 of a failure. -/
theorem decodeWith_next {f : Word → Word} (hf : f 0 = 0) (hwf : s.wf) (h : decodeWith f s = .next t) :
    CompletedFrom s t := by
  obtain ⟨v, c, hdec, rfl⟩ := decodeWith_cases h
  obtain ⟨hcount, hzero⟩ := scan_isDecodeCount le_rfl hdec
  refine ⟨hwf, rfl, rfl, rfl, ?_⟩
  rintro _ ⟨⟩
  exact Response.legal_decoded hcount fun hc => by rw [hzero hc, hf]

/-- An operation takes the fault or completes. -/
theorem exec_next (hwf : s.wf) (h : exec i s = .next t) :
    (s.D.len < 10 ∧ t = takeCapacityViolation s) ∨ CompletedFrom s t := by
  obtain ⟨x, ⟨-, h⟩ | ⟨-, h⟩⟩ | ⟨x, ⟨-, h⟩ | ⟨-, h⟩⟩ | ⟨-, h⟩ | ⟨-, h⟩ := exec_cases h
  · exact intoEncoding_next hwf h
  · exact intoEncoding_next hwf h
  · exact .inr (appendEncoding_next hwf h)
  · exact .inr (appendEncoding_next hwf h)
  · exact .inr (decodeWith_next rfl hwf h)
  · exact .inr (decodeWith_next unzz_zero hwf h)

/-- A caller action keeps the canonical form, the outcome, the response and what is pending, and the slice unless
it hands over another one. -/
theorem performCaller_next {a : CallerAction} (hwf : s.wf) (h : performCaller a s = .next t) :
    t.wf ∧ t.outcome = s.outcome ∧ t.response = s.response ∧ t.pending = s.pending ∧
      (t.D = s.D ∨ ∃ bs, a = .initD bs ∧ t.D = Memory.ofBytes bs) := by
  obtain ⟨k, -, -, rfl⟩ | ⟨bs, -, rfl⟩ | ⟨bs, ha, rfl⟩ | ⟨k, -, -, rfl⟩ := performCaller_cases h
  · exact ⟨⟨Memory.wf_dropTail hwf.1 k, hwf.2⟩, rfl, rfl, rfl, .inl rfl⟩
  · exact ⟨⟨Memory.wf_ofBytes bs, hwf.2⟩, rfl, rfl, rfl, .inl rfl⟩
  · exact ⟨⟨hwf.1, Memory.wf_ofBytes bs⟩, rfl, rfl, rfl, .inr ⟨bs, ha, rfl⟩⟩
  · exact ⟨⟨Memory.wf_appendAll hwf.1 _, hwf.2⟩, rfl, rfl, rfl, .inl rfl⟩

/-! ### The invariant (R88, R97) -/

/-- A running state has no fault to record. -/
theorem inv_of_running (hwf : s.wf) (ho : s.outcome = .running)
    (hr : ∀ r, s.response = some r → r.legal) : s.Inv :=
  ⟨hwf, fun cap hcap => by simp [ho] at hcap, hr⟩

/-- Taking the fault records the capacity in the outcome and the response. -/
theorem inv_takeCapacityViolation (hwf : s.wf) (hcap : s.D.len < 10) : (takeCapacityViolation s).Inv := by
  refine ⟨hwf, ?_, ?_⟩
  · rintro _ ⟨⟩
    exact ⟨rfl, hcap, rfl⟩
  · rintro _ ⟨⟩
    exact Response.legal_faulted hcap

/-- Settles O57: the run was running, and an operation takes the fault or completes, a caller action keeps the
response. -/
theorem stepKeepsInv : Obligations.StepKeepsInv := by
  intro s t hinv h
  obtain ⟨hwf, -, hresp⟩ := hinv
  obtain ⟨ho, ⟨-, rfl⟩ | ⟨p, rest, -, h⟩ | ⟨a, rest, -, h⟩⟩ := step_cases h
  · exact inv_of_running hwf ho hresp
  · obtain ⟨hcap, rfl⟩ | hdone := exec_next (s := s.setPending rest) hwf h
    · exact inv_takeCapacityViolation hwf hcap
    · exact inv_of_running hdone.wf (hdone.outcome.trans ho) hdone.response
  · obtain ⟨hwf', ho', hr', -, -⟩ := performCaller_next (s := s.setPending rest) hwf h
    exact inv_of_running hwf' (ho'.trans ho) (hr' ▸ hresp)

theorem launch_inv (b d : List Byte) (es : List Event) : (State.launch b d es).Inv :=
  inv_of_running (State.launch_wf b d es) rfl (by rintro _ ⟨⟩)

/-- Settles O58: reset is a launch, and a launch is running without a response. -/
theorem launchMeetsInv : Obligations.LaunchMeetsInv := ⟨launch_inv _ _ _, launch_inv⟩

/-! ### Runs whose caller establishes the capacity (R114, R118) -/

/-- A running state with canonical regions whose caller keeps the capacity of ten. -/
structure CapacityKept (s : State) : Prop where
  wf : s.wf
  running : s.outcome = .running
  capacity : s.capacityEstablished

/-- A step leaves the slice or replaces it by one the caller handed over, which holds ten bytes. -/
theorem step_keeps_capacity (hs : CapacityKept s) (h : step s = .next t) : CapacityKept t := by
  obtain ⟨hwf, ho, hcap, hpend⟩ := hs
  obtain ⟨-, ⟨-, rfl⟩ | ⟨p, rest, hp, h⟩ | ⟨a, rest, hp, h⟩⟩ := step_cases h
  · exact ⟨hwf, ho, hcap, hpend⟩
  · rw [hp, List.forall_mem_cons] at hpend
    obtain ⟨hlow, -⟩ | hdone := exec_next (s := s.setPending rest) hwf h
    · exact absurd hlow (Nat.not_lt.2 hcap)
    · exact ⟨hdone.wf, hdone.outcome.trans ho, hdone.cap ▸ hcap, hdone.pending ▸ hpend.2⟩
  · rw [hp, List.forall_mem_cons] at hpend
    obtain ⟨hwf', ho', -, hp', hD⟩ := performCaller_next (s := s.setPending rest) hwf h
    refine ⟨hwf', ho'.trans ho, ?_, hp' ▸ hpend.2⟩
    obtain hD | ⟨bs, rfl, hD⟩ := hD
    · exact hD ▸ hcap
    · rw [hD, Memory.len_ofBytes]
      exact hpend.1

theorem reaches_keeps_capacity (hs : CapacityKept s) (h : Reaches s t) : CapacityKept t := by
  induction h with
  | refl => exact hs
  | tail _ hstep ih => exact step_keeps_capacity ih hstep

/-- Settles O59: every reachable state keeps the capacity, and a step of a running run with canonical regions does
not fault. -/
theorem establishedCapacityMeansNoFault : Obligations.EstablishedCapacityMeansNoFault := by
  intro s hwf ho hcap t hreach
  have ht := reaches_keeps_capacity ⟨hwf, ho, hcap⟩ hreach
  exact ⟨ht.running, step_ne_fault ht.wf ht.running⟩

end Sys2Proof.Machine
